-- ==== Sys2Proof/Word.lean ====
section
/-! DEFINITION. The one word of CORE, an unsigned byte, and the register index (00_scope.md R7, R9). -/

namespace Sys2Proof

/-- A register value, memory byte, operand or address: 8 bits, never read as signed (R7, R9). -/
abbrev Byte := BitVec 8

/-- The index of a register: `NREG` is 8 (R7, R30). -/
abbrev RegIndex := Fin 8

end Sys2Proof
end

