-- ==== Sys2Proof/Config.lean ====
section
/-! DEFINITION. The parameters of 00_scope.md R7 that the machine uses as numbers. The spec leaves none of them open, and
no value of the machine is free. -/

namespace Sys2Proof.Config

/-- `SP_INDEX`: the register the stack protocol uses (R7, R170). -/
abbrev spIndex : RegIndex := 7

/-- `SP_RESET`: the reset value of register 7 (R7, R34). -/
abbrev spReset : Byte := 0xF4

/-- `MEMSIZE`: bytes of memory (R7, R70). -/
abbrev memSize : Nat := 256

/-- The last address, `0xFF` (R7, R73). -/
abbrev lastAddress : Nat := 0xFF

/-- What an address that the memory list does not name reads as: the reset value of every byte (R70). -/
abbrev unlistedByte : Byte := 0x00

end Sys2Proof.Config
end

