-- ==== Sys2Proof/Machine/State.lean ====
section
/-! DEFINITION. The state of the core, plain data: exactly the tuple of 10_state.md R62, with the reset values of
70_reset_and_hazards.md R270. -/

namespace Sys2Proof.Machine

/-- Why `step` answers no next state. The spec's own faults are no such stop: they are next states in status FAULTED
(60_exceptions.md R241). All three are raised by `stopped` (Machine/Cycle.lean) alone, and all three are safe: the spec
gives the core no step there (40_fetch_decode_execute.md R138; log entry 1). -/
inductive Fault where
  /-- A step was asked of a core in IDLE: the host has not started it (R60). Raised by `stopped`. Safe. -/
  | coreIdle
  /-- A step was asked of a core in HALTED (R221). Raised by `stopped`. Safe. -/
  | coreHalted
  /-- A step was asked of a core in FAULTED (R243). Raised by `stopped`. Safe. -/
  | coreFaulted
deriving DecidableEq, Repr

/-- Why an instruction has no meaning here. -/
inductive Refusal where
  /-- The instruction has no meaning in the model yet. Raised by an arm of `exec`; none does. Safe. -/
  | notModelled (mnemonic : String)
deriving DecidableEq, Repr

/-- The outcome of one step or one meaning. -/
abbrev Result (σ : Type) := Host.Outcome σ Fault Refusal

/-- The flags register `FL`: four states, the bits of R50 being the host's view only (10_state.md R48). -/
inductive Flag where
  | unset | equal | lessThan | greaterThan
deriving DecidableEq, Repr

/-- The run status (10_state.md R52). -/
inductive Status where
  | idle | running | halted | faulted
deriving DecidableEq, Repr

/-- The fault causes of 60_exceptions.md R230; `aluUnsupported` is reserved and no rule raises it (R237). -/
inductive Cause where
  | none | unknownOpcode | fetchRange | badRegister | stackOverflow | stackUnderflow | pcRange | aluUnsupported
deriving DecidableEq, Repr

/-- What `raise Fault(cause, info)` carries (00_scope.md R12). -/
structure FaultReport where
  cause : Cause
  info : Byte
deriving DecidableEq, Repr

/-- The 256 bytes of memory (20_memory.md R70) as the list of the bytes that differ from the reset value. -/
abbrev Memory := List Host.Cell

/-- Addresses strictly rising from `lo`, inside the address space, and no listed byte equal to an unlisted one. -/
def Memory.wfFrom (lo : Nat) : Memory → Bool
  | [] => true
  | (a, v) :: rest =>
    decide (lo ≤ a) && decide (a < Config.memSize) && decide (v ≠ Config.unlistedByte) && Memory.wfFrom (a + 1) rest

/-- The one canonical form: equal memories are equal lists. -/
def Memory.wf (m : Memory) : Bool := Memory.wfFrom 0 m

/-- Everything the spec gives the machine, and nothing else (10_state.md R62). -/
structure State where
  /-- `x[0..7]`; `x[7]` is the stack pointer (R30, R170) -/
  regs : Vector Byte 8
  /-- `pc` (R40) -/
  pc : Byte
  /-- `IR`, the opcode byte of the last fetch (R46) -/
  ir : Byte
  /-- `FL` (R48) -/
  fl : Flag
  /-- `mem` (R70) -/
  mem : Memory
  /-- `status` (R52) -/
  status : Status
  /-- `FAULT_CAUSE` (R53) -/
  faultCause : Cause
  /-- `FAULT_PC` (R53) -/
  faultPc : Byte
  /-- `FAULT_OPCODE` (R53) -/
  faultOpcode : Byte
  /-- `FAULT_INFO` (R53) -/
  faultInfo : Byte
  /-- `out`, oldest value first (R57) -/
  out : List Byte
deriving DecidableEq, Repr

/-- The state right after reset (70_reset_and_hazards.md R270): the spec states every value. -/
def State.reset : State where
  regs := #v[0x00, 0x00, 0x00, 0x00, 0x00, 0x00, 0x00, Config.spReset]
  pc := 0x00
  ir := 0x00
  fl := .unset
  mem := []
  status := .idle
  faultCause := .none
  faultPc := 0x00
  faultOpcode := 0x00
  faultInfo := 0x00
  out := []

end Sys2Proof.Machine
end

