-- ==== Sys2Proof/Machine/Flags.lean ====
section
/-! DEFINITION. Every flag computation: what CMP writes (44_alu.md R203), what JEQ and JNE read (43_control_transfer.md
R183), and the host's numeric view of FL (10_state.md R50). -/

namespace Sys2Proof.Machine

/-- CMP's state of FL: the unsigned order of the two values (R203). -/
def compareFlag (va vb : Byte) : Flag :=
  if va.toNat < vb.toNat then .lessThan
  else if vb.toNat < va.toNat then .greaterThan
  else .equal

/-- JEQ is taken in Equal only (R183, R184). -/
def jeqTaken : Flag → Bool
  | .equal => true
  | .lessThan => false
  | .greaterThan => false
  | .unset => false

/-- JNE is taken in LessThan and GreaterThan only, not in Unset (R183, R185). -/
def jneTaken : Flag → Bool
  | .equal => false
  | .lessThan => true
  | .greaterThan => true
  | .unset => false

/-- FL as an 8-bit register `00000LGE`, in the host's view only (R50). UNVERIFIED: the spec takes the bit places from
general knowledge (log entry 3). -/
def Flag.bits : Flag → Byte
  | .unset => 0x00
  | .equal => 0x01
  | .greaterThan => 0x02
  | .lessThan => 0x04

end Sys2Proof.Machine
end

