-- ==== Sys2Proof/Machine/Ops.lean ====
section
/-! DEFINITION. The named operations over memory and registers, the state access primitives of 00_scope.md R12, the
stack steps of 42_stack.md R171, and taking a fault (60_exceptions.md R241), each once. -/

namespace Sys2Proof.Machine

/-! ### Memory (20_memory.md R74)

Addresses are bytes, so no access is ever out of range: callers make an address a byte only after the checks of R73. -/

/-- The byte a memory list holds under a key. -/
def Memory.lookup : Memory → Nat → Byte
  | [], _ => Config.unlistedByte
  | (b, w) :: rest, a => if b = a then w else Memory.lookup rest a

/-- `MemRead(addr, 1)` (R74); reading changes nothing (R79). -/
def Memory.read (m : Memory) (a : Byte) : Byte := Memory.lookup m a.toNat

/-- The head of a memory list from key `a` on: nothing is listed for an unlisted byte's value. -/
def Memory.cons (a : Nat) (v : Byte) (rest : Memory) : Memory :=
  if v = Config.unlistedByte then rest else (a, v) :: rest

/-- Puts a byte under a key, keeping the canonical form. -/
def Memory.insert : Memory → Nat → Byte → Memory
  | [], a, v => Memory.cons a v []
  | (b, w) :: rest, a, v =>
    if a < b then Memory.cons a v ((b, w) :: rest)
    else if a = b then Memory.cons a v rest
    else (b, w) :: Memory.insert rest a v

/-- `MemWrite(addr, 1, v)` (R74). -/
def Memory.write (m : Memory) (a v : Byte) : Memory := Memory.insert m a.toNat v

/-- Writes bytes to the addresses from `a` up, as far as the address space goes. -/
def Memory.writeFrom (m : Memory) (a : Nat) : List Byte → Memory
  | [] => m
  | v :: rest =>
    if a < Config.memSize then Memory.writeFrom (Memory.write m (BitVec.ofNat 8 a) v) (a + 1) rest else m

/-- The bytes at `a`, `a + 1`, ..., at most `n` of them and none past the last address. -/
def Memory.bytesFrom (m : Memory) (a : Nat) : Nat → List Byte
  | 0 => []
  | n + 1 =>
    if a ≤ Config.lastAddress then Memory.read m (BitVec.ofNat 8 a) :: Memory.bytesFrom m (a + 1) n else []

/-! ### Registers, pc, IR, FL, output (00_scope.md R12) -/

/-- `x[r]`, read; no register is hard-wired (10_state.md R32). -/
def State.reg (s : State) (r : RegIndex) : Byte := s.regs[r]

/-- `x[r] <- v`. -/
def State.setReg (s : State) (r : RegIndex) (v : Byte) : State := { s with regs := s.regs.set r v }

/-- `SP`, another name of `x[7]` (R12). -/
def State.sp (s : State) : Byte := s.reg Config.spIndex

/-- `pc <- t`. -/
def State.setPc (s : State) (t : Byte) : State := { s with pc := t }

/-- `IR <- op`, done by every fetch (40_fetch_decode_execute.md R131). -/
def State.setIr (s : State) (op : Byte) : State := { s with ir := op }

/-- `FL <- f`. -/
def State.setFl (s : State) (f : Flag) : State := { s with fl := f }

/-- `status <- st`. -/
def State.setStatus (s : State) (st : Status) : State := { s with status := st }

/-- `MemWrite(a, 1, v)` on the state. -/
def State.store (s : State) (a v : Byte) : State := { s with mem := s.mem.write a v }

/-- `Emit(v)`: appends to the output stream, never blocks and never fails (41_register_and_output.md R163). -/
def State.emit (s : State) (v : Byte) : State := { s with out := s.out ++ [v] }

/-! ### The stack steps (42_stack.md R171) -/

/-- The address a push stores to: `SP - 1` (20_memory.md R72). -/
def State.pushAddress (s : State) : Byte := s.sp - 1

/-- The push step of PUSH and CALL: pre-decrement, then write. -/
def State.push (s : State) (v : Byte) : State :=
  (s.setReg Config.spIndex s.pushAddress).store s.pushAddress v

/-- The byte on top of the stack, `MemRead(x[7], 1)`. -/
def State.top (s : State) : Byte := s.mem.read s.sp

/-- The pointer's part of the pop step of POP and RET: post-increment. -/
def State.popped (s : State) : State := s.setReg Config.spIndex (s.sp + 1)

/-- A push must have room below `SP` (60_exceptions.md R234). -/
def pushRoom (s : State) : Except FaultReport Unit :=
  if s.sp = 0x00 then .error ⟨.stackOverflow, 0x00⟩ else .ok ()

/-- A pop must have room above `SP` (60_exceptions.md R235). -/
def popRoom (s : State) : Except FaultReport Unit :=
  if s.sp = 0xFF then .error ⟨.stackUnderflow, 0xFF⟩ else .ok ()

/-! ### Advancing the pc (40_fetch_decode_execute.md R136) -/

/-- `seq(a, L)`: the successor address, or PC_RANGE where it leaves the address space. -/
def seq (a : Byte) (len : Nat) : Except FaultReport Byte :=
  if Config.lastAddress < a.toNat + len then .error ⟨.pcRange, 0x00⟩ else .ok (BitVec.ofNat 8 (a.toNat + len))

/-! ### Taking a fault (60_exceptions.md R240, R241)

The one trap mechanism of the core. There is no return from it: FAULTED is terminal, and only `reset()` leaves it
(R243), which is `hostReset` of Machine/HostPort.lean. -/

/-- What a fault writes, and all it writes: status and the fault record; pc keeps the faulting instruction's address and
the opcode byte is the one the fetch left in IR (R241). -/
def State.enterFault (s : State) (f : FaultReport) : State :=
  { s with
    status := .faulted
    faultCause := f.cause
    faultPc := s.pc
    faultOpcode := s.ir
    faultInfo := f.info }

/-- Ends an instruction: the state its rule leaves, or the fault it raised, taken from the state before any of its
writes (00_scope.md R13). -/
def perform (s : State) (rule : Except FaultReport State) : Result State :=
  match rule with
  | .ok t => .next t
  | .error f => .next (s.enterFault f)

end Sys2Proof.Machine
end

