-- ==== Sys2Proof/Machine/Operands.lean ====
section
/-! DEFINITION. The operand forms: a register index byte (30_encoding.md R106) and a raw immediate (R107), which is
the operand byte itself. -/

namespace Sys2Proof.Machine

/-- The register a register-operand byte names, without masking; 8 to 255 raise BAD_REGISTER with the byte, whether or
not the instruction goes on to use the register (R106, 40_fetch_decode_execute.md R134, 60_exceptions.md R233). -/
def regOperand (b : Byte) : Except FaultReport (RegIndex) :=
  if h : b.toNat < 8 then .ok ⟨b.toNat, h⟩ else .error ⟨.badRegister, b⟩

end Sys2Proof.Machine
end

