-- ==== Sys2Proof/Machine/Alu.lean ====
section
/-! DEFINITION. The ALU and its three instructions (44_alu.md). The decoder routes nothing else to it, so
ALU_UNSUPPORTED is never raised (R208). -/

namespace Sys2Proof.Machine

/-- `(va + vb) mod 256`: exact, then truncated (R201, R204). -/
def aluAdd (va vb : Byte) : Byte := BitVec.ofNat 8 (va.toNat + vb.toNat)

/-- `(va * vb) mod 256`: exact, then truncated; the high byte is kept nowhere (R202, R204). -/
def aluMul (va vb : Byte) : Byte := BitVec.ofNat 8 (va.toNat * vb.toNat)

/-- The rule ADD and MUL share: both registers read, the first one written (R200). -/
def aluWrite (f : Byte → Byte → Byte) (ra rb : Byte) (s : State) : Result State :=
  perform s do
    let a ← regOperand ra
    let b ← regOperand rb
    let next ← seq s.pc 3
    return (s.setReg a (f (s.reg a) (s.reg b))).setPc next

/-- ADD ra, rb (R201). -/
def execAdd (ra rb : Byte) (s : State) : Result State := aluWrite aluAdd ra rb s

/-- MUL ra, rb (R202). -/
def execMul (ra rb : Byte) (s : State) : Result State := aluWrite aluMul ra rb s

/-- CMP ra, rb (R203): writes FL and no register. -/
def execCmp (ra rb : Byte) (s : State) : Result State :=
  perform s do
    let a ← regOperand ra
    let b ← regOperand rb
    let next ← seq s.pc 3
    return (s.setFl (compareFlag (s.reg a) (s.reg b))).setPc next

end Sys2Proof.Machine
end

