-- ==== Sys2Proof/Machine/Control.lean ====
section
/-! DEFINITION. CALL, RET, JMP, JEQ and JNE (43_control_transfer.md). -/

namespace Sys2Proof.Machine

/-- The end JEQ and JNE share: Jump(x[r]) when taken, Continue when not; the register byte is checked either way
(R184, R185, 30_encoding.md R106). -/
def jumpIf (taken : Bool) (r : Byte) (s : State) : Result State :=
  perform s do
    let d ← regOperand r
    if taken then
      return s.setPc (s.reg d)
    else
      let next ← seq s.pc 2
      return s.setPc next

/-- CALL r (R180): pushes the return address `a + 2`, which must fit in a byte, and jumps to the value `x[r]` had
before the push. -/
def execCall (r : Byte) (s : State) : Result State :=
  perform s do
    let d ← regOperand r
    let target := s.reg d
    pushRoom s
    let returnAddress ← seq s.pc 2
    return (s.push returnAddress).setPc target

/-- RET (R181): pops a byte and jumps to it. -/
def execRet (s : State) : Result State :=
  perform s do
    popRoom s
    let target := s.top
    return s.popped.setPc target

/-- JMP r (R182). -/
def execJmp (r : Byte) (s : State) : Result State :=
  perform s do
    let d ← regOperand r
    return s.setPc (s.reg d)

/-- JEQ r (R184). -/
def execJeq (r : Byte) (s : State) : Result State := jumpIf (jeqTaken s.fl) r s

/-- JNE r (R185). -/
def execJne (r : Byte) (s : State) : Result State := jumpIf (jneTaken s.fl) r s

end Sys2Proof.Machine
end

