-- ==== Sys2Proof/Machine/Halt.lean ====
section
/-! DEFINITION. HLT (45_halt.md). -/

namespace Sys2Proof.Machine

/-- HLT (R220): HALTED, and the pc advances mod 256; it is no Continue, so it raises nothing even at 0xFF. -/
def execHlt (s : State) : Result State :=
  .next ((s.setStatus .halted).setPc (BitVec.ofNat 8 (s.pc.toNat + 1)))

end Sys2Proof.Machine
end

