-- ==== Sys2Proof/Machine/RegisterOutput.lean ====
section
/-! DEFINITION. LDI and PRN (41_register_and_output.md). -/

namespace Sys2Proof.Machine

/-- LDI r, imm (R160): `x[r] <- imm`. -/
def execLdi (r imm : Byte) (s : State) : Result State :=
  perform s do
    let d ← regOperand r
    let next ← seq s.pc 3
    return (s.setReg d imm).setPc next

/-- PRN r (R161): emits `x[r]`. -/
def execPrn (r : Byte) (s : State) : Result State :=
  perform s do
    let d ← regOperand r
    let next ← seq s.pc 2
    return (s.emit (s.reg d)).setPc next

end Sys2Proof.Machine
end

