-- ==== Sys2Proof/Machine/Stack.lean ====
section
/-! DEFINITION. PUSH and POP (42_stack.md). -/

namespace Sys2Proof.Machine

/-- PUSH r (R172): the value is read before any write, so `PUSH R7` stores the old stack pointer. -/
def execPush (r : Byte) (s : State) : Result State :=
  perform s do
    let d ← regOperand r
    let v := s.reg d
    pushRoom s
    let next ← seq s.pc 2
    return (s.push v).setPc next

/-- POP r (R173): the register write comes last, so `POP R7` keeps the popped byte. -/
def execPop (r : Byte) (s : State) : Result State :=
  perform s do
    let d ← regOperand r
    popRoom s
    let next ← seq s.pc 2
    let v := s.top
    return (s.popped.setReg d v).setPc next

end Sys2Proof.Machine
end

