-- ==== Sys2Proof/Syntax.lean ====
section
/-! DEFINITION. The 13 instructions of spec/opcode_table.json, with their operand bytes raw: a register operand is a
whole byte, used as an index without masking (30_encoding.md R101, R106). -/

namespace Sys2Proof

/-- One constructor per row of the opcode table; operands in the order of 30_encoding.md R101. -/
inductive Instr where
  /-- HLT, 45_halt.md R220 -/
  | hlt
  /-- RET, 43_control_transfer.md R181 -/
  | ret
  /-- PUSH r, 42_stack.md R172 -/
  | push (r : Byte)
  /-- POP r, 42_stack.md R173 -/
  | pop (r : Byte)
  /-- PRN r, 41_register_and_output.md R161 -/
  | prn (r : Byte)
  /-- CALL r, 43_control_transfer.md R180 -/
  | call (r : Byte)
  /-- JMP r, 43_control_transfer.md R182 -/
  | jmp (r : Byte)
  /-- JEQ r, 43_control_transfer.md R184 -/
  | jeq (r : Byte)
  /-- JNE r, 43_control_transfer.md R185 -/
  | jne (r : Byte)
  /-- LDI r, imm, 41_register_and_output.md R160 -/
  | ldi (r imm : Byte)
  /-- ADD ra, rb, 44_alu.md R201 -/
  | add (ra rb : Byte)
  /-- MUL ra, rb, 44_alu.md R202 -/
  | mul (ra rb : Byte)
  /-- CMP ra, rb, 44_alu.md R203 -/
  | cmp (ra rb : Byte)
deriving DecidableEq, Repr

/-- What the dispatch decoder selects: the operation without its operands (30_encoding.md R108). -/
inductive Op where
  | hlt | ret | push | pop | prn | call | jmp | jeq | jne | ldi | add | mul | cmp
deriving DecidableEq, Repr

/-- The four formats of 30_encoding.md R101. -/
inductive Format where
  /-- opcode -/
  | n
  /-- opcode, register -/
  | r
  /-- opcode, register, immediate -/
  | ri
  /-- opcode, register, register -/
  | rr
deriving DecidableEq, Repr

/-- The format of each operation (R101). -/
def Op.format : Op → Format
  | .hlt => .n
  | .ret => .n
  | .push => .r
  | .pop => .r
  | .prn => .r
  | .call => .r
  | .jmp => .r
  | .jeq => .r
  | .jne => .r
  | .ldi => .ri
  | .add => .rr
  | .mul => .rr
  | .cmp => .rr

/-- Operand bytes of a format (R101, R102). -/
def Format.operandCount : Format → Nat
  | .n => 0
  | .r => 1
  | .ri => 2
  | .rr => 2

/-- The operation of an instruction. -/
def Instr.op : Instr → Op
  | .hlt => .hlt
  | .ret => .ret
  | .push _ => .push
  | .pop _ => .pop
  | .prn _ => .prn
  | .call _ => .call
  | .jmp _ => .jmp
  | .jeq _ => .jeq
  | .jne _ => .jne
  | .ldi _ _ => .ldi
  | .add _ _ => .add
  | .mul _ _ => .mul
  | .cmp _ _ => .cmp

/-- The operand bytes of an instruction, in the order of R101. -/
def Instr.operands : Instr → List Byte
  | .hlt => []
  | .ret => []
  | .push r => [r]
  | .pop r => [r]
  | .prn r => [r]
  | .call r => [r]
  | .jmp r => [r]
  | .jeq r => [r]
  | .jne r => [r]
  | .ldi r imm => [r, imm]
  | .add ra rb => [ra, rb]
  | .mul ra rb => [ra, rb]
  | .cmp ra rb => [ra, rb]

end Sys2Proof
end

