-- ==== Sys2Proof/Decode.lean ====
section
/-! DEFINITION. The dispatch decoder and the encoder, both read from the opcode table of 30_encoding.md R104 and the
formats of R101. Decoding is total on any bytes and rejects by name. -/

namespace Sys2Proof

/-- Instruction length from the opcode byte alone, 1 to 4 (30_encoding.md R103). -/
def lengthOf (op : Byte) : Nat := ((op >>> 6) &&& 0b11).toNat + 1

/-- The opcode byte of each operation (30_encoding.md R104). UNVERIFIED for all but HLT, PRN and LDI: the spec takes the
other ten values from general knowledge (log entry 2). -/
def Op.opcode : Op → Byte
  | .hlt => 0b00000001
  | .ret => 0b00010001
  | .push => 0b01000101
  | .pop => 0b01000110
  | .prn => 0b01000111
  | .call => 0b01010000
  | .jmp => 0b01010100
  | .jeq => 0b01010101
  | .jne => 0b01010110
  | .ldi => 0b10000010
  | .add => 0b10100000
  | .mul => 0b10100010
  | .cmp => 0b10100111

/-- Every operation, in the order of R104. -/
def Op.all : List Op :=
  [.hlt, .ret, .push, .pop, .prn, .call, .jmp, .jeq, .jne, .ldi, .add, .mul, .cmp]

/-- The dispatch decoder: the whole opcode byte against the 13 values, `none` for the other 243 (30_encoding.md R108). -/
def dispatch (op : Byte) : Option Op := Op.all.find? fun o => o.opcode == op

/-- Why bytes decode to no instruction. -/
inductive DecodeError where
  /-- no byte at all -/
  | noBytes
  /-- the first byte is none of the 13 opcodes (R108) -/
  | unknownOpcode (op : Byte)
  /-- a recognized opcode with fewer bytes after it than its format has operands (R133) -/
  | missingOperand (op : Byte)
deriving DecidableEq, Repr

/-- Format N: no operand byte is taken. -/
def noOperand (i : Instr) (bytes : List Byte) : Option (Instr × List Byte) := some (i, bytes)

/-- Format R: one operand byte. -/
def oneOperand (mk : Byte → Instr) : List Byte → Option (Instr × List Byte)
  | o1 :: rest => some (mk o1, rest)
  | [] => none

/-- Formats RI and RR: two operand bytes, in increasing address order. -/
def twoOperands (mk : Byte → Byte → Instr) : List Byte → Option (Instr × List Byte)
  | o1 :: o2 :: rest => some (mk o1 o2, rest)
  | [_] => none
  | [] => none

/-- Takes the operand bytes of an operation from the bytes after its opcode (30_encoding.md R101). -/
def assemble : Op → List Byte → Option (Instr × List Byte)
  | .hlt => noOperand .hlt
  | .ret => noOperand .ret
  | .push => oneOperand .push
  | .pop => oneOperand .pop
  | .prn => oneOperand .prn
  | .call => oneOperand .call
  | .jmp => oneOperand .jmp
  | .jeq => oneOperand .jeq
  | .jne => oneOperand .jne
  | .ldi => twoOperands .ldi
  | .add => twoOperands .add
  | .mul => twoOperands .mul
  | .cmp => twoOperands .cmp

/-- The instruction at the head of the bytes, and the bytes after it. The opcode is matched before any operand byte is
looked at (40_fetch_decode_execute.md R132, R133). -/
def decode : List Byte → Except DecodeError (Instr × List Byte)
  | [] => .error .noBytes
  | op :: rest =>
    match dispatch op with
    | none => .error (.unknownOpcode op)
    | some o =>
      match assemble o rest with
      | none => .error (.missingOperand op)
      | some found => .ok found

/-- The bytes of an instruction: the opcode, then each operand byte in order (30_encoding.md R116). -/
def encode (i : Instr) : List Byte := i.op.opcode :: i.operands

/-- The bytes of the longest instruction (30_encoding.md R111). -/
def longestInstr : Nat := 3

/-- The bytes of a table word of `nbits` bits: bit 0 is the least significant bit of the first byte, every bit from
`nbits` up to the longest instruction is 0. -/
def tableBytes (nbits w : Nat) : List Byte :=
  (List.range longestInstr).map fun k => BitVec.ofNat 8 ((w % 2 ^ nbits) >>> (8 * k))

/-- The instruction the decoder reads from a word of the opcode table. -/
def decodeTableWord (nbits w : Nat) : Option Instr :=
  match decode (tableBytes nbits w) with
  | .ok found => some found.1
  | .error _ => none

end Sys2Proof
end

