-- ==== Sys2Proof/Machine/Fetch.lean ====
section
/-! DEFINITION. Fetch, dispatch and operand fetch (40_fetch_decode_execute.md R131 to R133). -/

namespace Sys2Proof.Machine

/-- The byte at the pc. -/
def State.opcodeByte (s : State) : Byte := s.mem.read s.pc

/-- The fault a decoding error is: an unrecognized opcode (R132), or operand bytes past the last address (R133). The pc
always names a byte, so `noBytes` cannot arise; it would be a fetch outside memory. -/
def DecodeError.report : DecodeError → FaultReport
  | .unknownOpcode _ => ⟨.unknownOpcode, 0x00⟩
  | .missingOperand _ => ⟨.fetchRange, 0x00⟩
  | .noBytes => ⟨.fetchRange, 0x00⟩

/-- The instruction at the pc: exactly as many bytes are read as the opcode byte's length says, and none past 0xFF; a
recognized instruction that is cut short there is FETCH_RANGE (R131 to R133). -/
def fetchInstr (s : State) : Except FaultReport Instr :=
  match decode (s.mem.bytesFrom s.pc.toNat (lengthOf s.opcodeByte)) with
  | .ok found => .ok found.1
  | .error e => .error (DecodeError.report e)

end Sys2Proof.Machine
end

