-- ==== Sys2Proof/Machine/Cycle.lean ====
section
/-! DEFINITION. One cycle of the core (40_fetch_decode_execute.md R137), and what a core that is not RUNNING answers. -/

namespace Sys2Proof.Machine

/-- Fetch, decode, execute, advance, as one atomic step (R130, R137). The fetch writes IR before anything can raise. -/
def cycle (s : State) : Result State :=
  let fetched := s.setIr s.opcodeByte
  match fetchInstr fetched with
  | .error f => .next (fetched.enterFault f)
  | .ok i => exec i fetched

/-- A core in IDLE, HALTED or FAULTED has no step (R138). DESIGN CHOICE, safe: the model says so by a named fault, with
no next state (log entry 1). -/
def stopped (f : Fault) : Result State := .fault f

/-- The state in which the very next step runs the given bytes: they are loaded at the pc, as far as the address space
goes, and the core is started (10_state.md R60). DESIGN CHOICE, safe (log entry 4). -/
def State.placeCode (s : State) (bytes : List Byte) : State :=
  { s with mem := s.mem.writeFrom s.pc.toNat bytes, status := .running }

end Sys2Proof.Machine
end

