-- ==== Sys2Proof/Machine/Step.lean ====
section
/-! DEFINITION. The step of the core: defined only while RUNNING (40_fetch_decode_execute.md R137, R138). -/

namespace Sys2Proof.Machine

/-- One instruction, in status RUNNING only. -/
def step (s : State) : Host.Outcome State Fault Refusal :=
  match s.status with
  | .running => cycle s
  | .idle => stopped .coreIdle
  | .halted => stopped .coreHalted
  | .faulted => stopped .coreFaulted

/-- `s` with a word of the opcode table stored at the pc and the core RUNNING, so that the next step runs it. -/
def State.withFetchWord (s : State) (nbits w : Nat) : State := s.placeCode (tableBytes nbits w)

end Sys2Proof.Machine
end

