-- ==== Sys2Proof/Machine/HostPort.lean ====
section
/-! DEFINITION. The host's transactions (10_state.md R60). They are no steps of the core: the host acts before start and
after a stop only. `none` is a refused transaction, which changes nothing. -/

namespace Sys2Proof.Machine

/-- `reset()`, permitted in any status, always gives the reset state (70_reset_and_hazards.md R271); it is the only way
out of HALTED and FAULTED (60_exceptions.md R243, R245). -/
def hostReset (_s : State) : State := State.reset

/-- `load(p)`: in IDLE, at most 256 bytes, copied from address 0 without validation; nothing else changes (R60, R61). -/
def load (p : List Byte) (s : State) : Option State :=
  if s.status = .idle ∧ p.length ≤ Config.memSize then some { s with mem := s.mem.writeFrom 0 p } else none

/-- `start()`: in IDLE; execution begins at the current pc (R60). -/
def start (s : State) : Option State :=
  if s.status = .idle then some (s.setStatus .running) else none

/-- The status code of 10_state.md R52, 2 bits (R54). -/
def Status.code : Status → BitVec 2
  | .idle => 0
  | .running => 1
  | .halted => 2
  | .faulted => 3

/-- The cause code of 60_exceptions.md R230. -/
def Cause.code : Cause → Byte
  | .none => 0
  | .unknownOpcode => 1
  | .fetchRange => 2
  | .badRegister => 3
  | .stackOverflow => 4
  | .stackUnderflow => 5
  | .pcRange => 6
  | .aluUnsupported => 7

/-- What `observe()` returns: every register in the host's numeric view (R54, R60). -/
structure Observation where
  regs : Vector Byte 8
  pc : Byte
  ir : Byte
  fl : Byte
  mem : List Byte
  status : BitVec 2
  faultCause : Byte
  faultPc : Byte
  faultOpcode : Byte
  faultInfo : Byte
  out : List Byte
  /-- the values are final: the core is HALTED or FAULTED (R60) -/
  final : Bool
deriving DecidableEq, Repr

/-- `observe()`, permitted in any status (R60). -/
def observe (s : State) : Observation where
  regs := s.regs
  pc := s.pc
  ir := s.ir
  fl := s.fl.bits
  mem := s.mem.bytesFrom 0 Config.memSize
  status := s.status.code
  faultCause := s.faultCause.code
  faultPc := s.faultPc
  faultOpcode := s.faultOpcode
  faultInfo := s.faultInfo
  out := s.out
  final := decide (s.status = .halted ∨ s.status = .faulted)

/-- The lines the host shows for the output stream: each value's unsigned decimal numeral, in execution order
(10_state.md R57, 41_register_and_output.md R163). -/
def outputLines (s : State) : List String := s.out.map fun v => toString v.toNat

end Sys2Proof.Machine
end

