-- ==== Sys2Proof/WellFormed.lean ====
section
/-! DEFINITION. An instruction is well formed when every register-operand byte names a register (30_encoding.md R106).
An ill-formed one is no decoding error: it decodes, and running it raises BAD_REGISTER (60_exceptions.md R233). -/

namespace Sys2Proof

/-- The register-operand bytes in field order; LDI's second byte is an immediate (R101, R134). -/
def Instr.registerFields : Instr → List Byte
  | .hlt => []
  | .ret => []
  | .push r => [r]
  | .pop r => [r]
  | .prn r => [r]
  | .call r => [r]
  | .jmp r => [r]
  | .jeq r => [r]
  | .jne r => [r]
  | .ldi r _ => [r]
  | .add ra rb => [ra, rb]
  | .mul ra rb => [ra, rb]
  | .cmp ra rb => [ra, rb]

/-- Every register-operand byte is 0 to 7 (R106). -/
def Instr.wellFormed (i : Instr) : Bool :=
  i.registerFields.all fun b => decide (b.toNat < 8)

end Sys2Proof
end

