-- ==== Sys2Proof/Safety.lean ====
section
/-! DEFINITION. What counts as a safe state and a safe step, the invariant of the core, the states a host can bring it
to, and the words the statements use, each written from the spec's own tables and not from the meanings. -/

namespace Sys2Proof.Machine

/-! ### The opcode bytes and the bytes at the pc -/

/-- The 1-byte opcodes (30_encoding.md R111). -/
def oneByteOpcodes : List Byte := [0x01, 0x11]

/-- The 2-byte opcodes (30_encoding.md R111). -/
def twoByteOpcodes : List Byte := [0x45, 0x46, 0x47, 0x50, 0x54, 0x55, 0x56]

/-- The 3-byte opcodes (30_encoding.md R111). -/
def threeByteOpcodes : List Byte := [0x82, 0xA0, 0xA2, 0xA7]

/-- The 13 recognized opcodes (30_encoding.md R108). -/
def recognizedOpcodes : List Byte := oneByteOpcodes ++ twoByteOpcodes ++ threeByteOpcodes

/-- `o1`, the byte after the pc (meaningful where pc + 1 is an address, 40_fetch_decode_execute.md R133). -/
def State.operand1 (s : State) : Byte := s.mem.read (s.pc + 1)

/-- `o2`, the second byte after the pc (meaningful where pc + 2 is an address, R133). -/
def State.operand2 (s : State) : Byte := s.mem.read (s.pc + 2)

/-- The operand byte that names register `r`; every byte that names a register is one of these (R106). -/
def regByte (r : RegIndex) : Byte := BitVec.ofNat 8 r.val

/-! ### Faults, by the table of 60_exceptions.md R230 in the order of R239 -/

/-- The first fault the instruction at the pc raises, if any. -/
def firstFault (s : State) : Option FaultReport :=
  let op := s.opcodeByte
  let a := s.pc.toNat
  if op ∉ recognizedOpcodes then some ⟨.unknownOpcode, 0x00⟩
  else if (op ∈ twoByteOpcodes ∧ 0xFF < a + 1) ∨ (op ∈ threeByteOpcodes ∧ 0xFF < a + 2) then
    some ⟨.fetchRange, 0x00⟩
  else if op ∈ twoByteOpcodes ++ threeByteOpcodes ∧ 7 < s.operand1.toNat then some ⟨.badRegister, s.operand1⟩
  else if op ∈ [0xA0, 0xA2, 0xA7] ∧ 7 < s.operand2.toNat then some ⟨.badRegister, s.operand2⟩
  else if op ∈ [0x45, 0x50] ∧ s.sp = 0x00 then some ⟨.stackOverflow, 0x00⟩
  else if op ∈ [0x46, 0x11] ∧ s.sp = 0xFF then some ⟨.stackUnderflow, 0xFF⟩
  else if (op ∈ threeByteOpcodes ∧ 0xFF < a + 3)
      ∨ (op ∈ [0x47, 0x45, 0x46, 0x50] ∧ 0xFF < a + 2)
      ∨ (op = 0x55 ∧ s.fl ≠ .equal ∧ 0xFF < a + 2)
      ∨ (op = 0x56 ∧ (s.fl = .equal ∨ s.fl = .unset) ∧ 0xFF < a + 2) then
    some ⟨.pcRange, 0x00⟩
  else none

/-- The whole state a fault of the instruction at the pc leaves (60_exceptions.md R241): IR, status and the fault record
are written, everything else is kept. -/
def State.faultStop (s : State) (c : Cause) (info : Byte) : State :=
  { s with
    ir := s.mem.read s.pc
    status := .faulted
    faultCause := c
    faultPc := s.pc
    faultOpcode := s.mem.read s.pc
    faultInfo := info }

/-- A state is safe when it is no error stop (10_state.md R52). -/
def State.Safe (s : State) : Prop := s.status ≠ .faulted

/-- A step is safe when it answers a next state that is no error stop. -/
def SafeStep (s : State) : Prop := ∃ t, step s = .next t ∧ t.Safe

/-! ### The operand faults of a format (40_fetch_decode_execute.md R133, R134) -/

/-- A 2-byte instruction at the pc: FETCH_RANGE at 0xFF, else BAD_REGISTER for an operand above 7. -/
def OperandFaultsR (s : State) : Prop :=
  (s.pc = 0xFF → step s = .next (s.faultStop .fetchRange 0x00)) ∧
  (s.pc ≠ 0xFF → 7 < s.operand1.toNat → step s = .next (s.faultStop .badRegister s.operand1))

/-- LDI at the pc: FETCH_RANGE from 0xFE, else BAD_REGISTER for a first operand above 7. -/
def OperandFaultsRI (s : State) : Prop :=
  (0xFE ≤ s.pc.toNat → step s = .next (s.faultStop .fetchRange 0x00)) ∧
  (s.pc.toNat < 0xFE → 7 < s.operand1.toNat → step s = .next (s.faultStop .badRegister s.operand1))

/-- ADD, MUL or CMP at the pc: as LDI, and BAD_REGISTER for a second operand above 7 after a first one that is not. -/
def OperandFaultsRR (s : State) : Prop :=
  OperandFaultsRI s ∧
  (s.pc.toNat < 0xFE → s.operand1.toNat ≤ 7 → 7 < s.operand2.toNat →
    step s = .next (s.faultStop .badRegister s.operand2))

/-! ### Frames -/

/-- Every byte of memory reads as before. -/
def SameMemory (s t : State) : Prop := ∀ a : Byte, t.mem.read a = s.mem.read a

/-- Every register outside `dests` is unchanged. -/
def SameRegsExcept (dests : List (RegIndex)) (s t : State) : Prop :=
  ∀ r : RegIndex, r ∉ dests → t.reg r = s.reg r

/-- Status and fault record are unchanged, unless the instruction raised a fault: then the status is FAULTED, and the
rest of the state, pc included, is unchanged but for the record (60_exceptions.md R241). -/
def SameControlUnlessFault (s t : State) : Prop :=
  (t.status = s.status ∧ t.faultCause = s.faultCause ∧ t.faultPc = s.faultPc ∧ t.faultOpcode = s.faultOpcode ∧
    t.faultInfo = s.faultInfo) ∨
  (t.status = .faulted ∧ t.pc = s.pc ∧ t.fl = s.fl ∧ t.out = s.out ∧ SameRegsExcept [] s t ∧ SameMemory s t)

/-! ### The invariant -/

/-- What holds of a core that a host has reset, loaded, started and let run. -/
structure State.Inv (s : State) : Prop where
  /-- memory is in its canonical form -/
  memWf : s.mem.wf = true
  /-- the fault record is written on entering FAULTED only (10_state.md R53) -/
  recordClear : s.status ≠ .faulted →
    s.faultCause = .none ∧ s.faultPc = 0x00 ∧ s.faultOpcode = 0x00 ∧ s.faultInfo = 0x00
  /-- in FAULTED the record names the instruction at the pc, its opcode byte, and the first fault that applies to it
  (60_exceptions.md R230, R239, R241) -/
  recordSet : s.status = .faulted →
    s.faultPc = s.pc ∧ s.faultOpcode = s.ir ∧ s.ir = s.mem.read s.pc ∧
      firstFault s = some ⟨s.faultCause, s.faultInfo⟩
  /-- HALTED is reached by HLT, which is the byte before the pc (45_halt.md R220) -/
  haltedByHlt : s.status = .halted → s.ir = 0x01 ∧ s.mem.read (s.pc - 1) = 0x01
  /-- in IDLE nothing but `load` has written since reset (10_state.md R60) -/
  idleIsReset : s.status = .idle → s = { State.reset with mem := s.mem }

/-- The states a host can bring the core to: reset, load, start (10_state.md R60), and steps of the core. -/
inductive Reachable : State → Prop where
  | reset : Reachable State.reset
  | hostReset {s : State} : Reachable s → Reachable (Machine.hostReset s)
  | load {s t : State} (p : List Byte) : Reachable s → Machine.load p s = some t → Reachable t
  | start {s t : State} : Reachable s → Machine.start s = some t → Reachable t
  | step {s t : State} : Reachable s → Machine.step s = .next t → Reachable t

end Sys2Proof.Machine
end

