-- ==== Sys2Proof/Certificates/Slice0/Obligations.lean ====
section
/-! DEFINITION. The statements about the core, one definition each. Where a docstring says "the spec's own decision D<n>"
or "derived in the spec", spec/ marks that rule or clause so (92_eei_decisions.md), and the statement formalises it as
it stands; it is no choice of the model's. -/

open Sys2Proof Sys2Proof.Machine

/-! ### Encoding -/

/-- Decoding an encoded instruction gives it back, with every operand at every byte (well formed or not), and leaves the
bytes after it (30_encoding.md R101, R104; R116 is derived in the spec). -/
def Obligations.DecodeOfEncodeIsTheInstruction : Prop :=
  ∀ (i : Instr) (rest : List Byte), decode (encode i ++ rest) = .ok (i, rest)

/-- Bytes have one meaning: whatever decodes to an instruction begins with exactly that instruction's encoding
(30_encoding.md R101, R108). -/
def Obligations.DecodedBytesAreTheEncoding : Prop :=
  ∀ (bytes : List Byte) (i : Instr) (rest : List Byte), decode bytes = .ok (i, rest) → bytes = encode i ++ rest

/-- 30_encoding.md R109, derived in the spec: the unrecognized bytes by their top two bits; exactly these are rejected
as unknown, whatever follows them. Ten of the 13 recognized values are the spec's own decision D2 (log entry 2). -/
def Obligations.UnknownOpcodesAreExactlyTheUnrecognizedBytes : Prop :=
  ∀ (op : Byte) (rest : List Byte),
    decode (op :: rest) = .error (.unknownOpcode op) ↔
      ((op.toNat ≤ 0x3F ∧ op ≠ 0x01 ∧ op ≠ 0x11) ∨
       (0x40 ≤ op.toNat ∧ op.toNat ≤ 0x7F ∧ op ≠ 0x45 ∧ op ≠ 0x46 ∧ op ≠ 0x47 ∧ op ≠ 0x50 ∧ op ≠ 0x54 ∧ op ≠ 0x55 ∧
          op ≠ 0x56) ∨
       (0x80 ≤ op.toNat ∧ op.toNat ≤ 0xBF ∧ op ≠ 0x82 ∧ op ≠ 0xA0 ∧ op ≠ 0xA2 ∧ op ≠ 0xA7) ∨
       0xC0 ≤ op.toNat)

/-- 30_encoding.md R105: bits 7:6 of every opcode are its operand count, so the length rule R103 gives every
instruction's length from its first byte. -/
def Obligations.TopBitsOfOpcodeCountOperands : Prop :=
  (∀ op : Byte, lengthOf op = op.toNat / 64 + 1) ∧
  (∀ i : Instr, i.op.opcode.toNat / 64 = i.operands.length ∧ (encode i).length = lengthOf i.op.opcode) ∧
  (∀ i : Instr, i.operands.length =
    match i with
    | .hlt => 0
    | .ret => 0
    | .push _ => 1
    | .pop _ => 1
    | .prn _ => 1
    | .call _ => 1
    | .jmp _ => 1
    | .jeq _ => 1
    | .jne _ => 1
    | .ldi _ _ => 2
    | .add _ _ => 2
    | .mul _ _ => 2
    | .cmp _ _ => 2)

/-- The words 30_encoding.md R116 writes out, and one word of each other family, decode to the instruction they stand
for. A sanity statement on fixed bytes. -/
def Obligations.SampleWordsDecodeAsWritten : Prop :=
  decode [0x82, 0x00, 0x08] = .ok (.ldi 0 8, []) ∧
  decode [0x47, 0x00] = .ok (.prn 0, []) ∧
  decode [0x01] = .ok (.hlt, []) ∧
  decode [0xA0, 0x01, 0x02] = .ok (.add 1 2, []) ∧
  decode [0x50, 0x03] = .ok (.call 3, []) ∧
  decode [0x11] = .ok (.ret, []) ∧
  decode [0x45, 0x07] = .ok (.push 7, []) ∧
  decode [0xA7, 0x02, 0x01] = .ok (.cmp 2 1, [])

/-! ### The step -/

/-- 40_fetch_decode_execute.md R137, derived in the spec from R131 to R136: when the bytes at the pc decode to an
instruction, a step of a RUNNING core is that instruction's meaning, in the state whose IR holds the opcode byte. -/
def Obligations.StepRunsTheDecodedInstruction : Prop :=
  ∀ (s : State) (i : Instr) (rest : List Byte), s.status = .running →
    decode (s.mem.bytesFrom s.pc.toNat longestInstr) = .ok (i, rest) →
    step s = exec i { s with ir := s.mem.read s.pc }

/-- The same said of memory reads: where the encoding of an instruction stands byte by byte at the pc, inside the
address space, a step of a RUNNING core is that instruction's meaning (R131, R133, R135). -/
def Obligations.StepRunsTheInstructionInMemory : Prop :=
  ∀ (s : State) (i : Instr), s.status = .running →
    (∀ (k : Nat) (hk : k < (encode i).length),
      s.pc.toNat + k ≤ 0xFF ∧ s.mem.read (BitVec.ofNat 8 (s.pc.toNat + k)) = (encode i)[k]) →
    step s = exec i { s with ir := s.mem.read s.pc }

/-- 40_fetch_decode_execute.md R138: the core steps while RUNNING, always (70_reset_and_hazards.md R290: a step always
completes), and only then. -/
def Obligations.CoreStepsExactlyWhileRunning : Prop :=
  ∀ s : State, (∃ t, step s = .next t) ↔ s.status = .running

/-- 40_fetch_decode_execute.md R132: a byte that is none of the 13 opcodes raises UNKNOWN_OPCODE at every address and
whatever follows it. Ten of the 13 values are the spec's own decision D2 (log entry 2). -/
def Obligations.UnrecognizedOpcodeStopsTheCore : Prop :=
  ∀ s : State, s.status = .running → s.mem.read s.pc ∉ recognizedOpcodes →
    step s = .next (s.faultStop .unknownOpcode 0x00)

/-- 60_exceptions.md R239, the spec's own decision D14: one step reports at most one fault, the first that applies of
the table of R230 (codes and most causes are the spec's own, D5, D9 to D12, D17) in the order of R239; where none
applies, the step ends without a fault. -/
def Obligations.StepReportsTheFirstFaultThatApplies : Prop :=
  ∀ s : State, s.status = .running →
    match firstFault s with
    | some f => step s = .next (s.faultStop f.cause f.info)
    | none => SafeStep s

/-- 60_exceptions.md R241, the spec's own decision D13: a fault writes status, fault record and (by the fetch) IR, and
nothing else; the causes are those R230 gives a "when", so ALU_UNSUPPORTED never arises. -/
def Obligations.FaultsArePrecise : Prop :=
  ∀ s t : State, step s = .next t → t.status = .faulted →
    ∃ c info, t = s.faultStop c info ∧ c ≠ .none ∧ c ≠ .aluUnsupported

/-- 10_state.md R42: what each way of ending leaves in the pc; a Continue never wraps. The jump targets, and when JEQ and
JNE are taken, are 43_control_transfer.md R180 to R185; that neither is taken in Unset is the spec's own decision D4. HLT
at 0xFF is D15, the pc kept by a fault D13, ten of the opcode bytes D2. -/
def Obligations.EveryEndingLeavesItsPc : Prop :=
  ∀ s t : State, step s = .next t →
    (t.status = .halted → t.pc.toNat = (s.pc.toNat + 1) % 256) ∧
    (t.status = .faulted → t.pc = s.pc) ∧
    (t.status = .running →
      (s.opcodeByte ∈ [0x82, 0x47, 0x45, 0x46, 0xA0, 0xA2, 0xA7] →
        t.pc.toNat = s.pc.toNat + lengthOf s.opcodeByte) ∧
      (s.opcodeByte = 0x11 → t.pc = s.mem.read s.sp) ∧
      (∀ r, s.operand1 = regByte r →
        (s.opcodeByte ∈ [0x50, 0x54] → t.pc = s.reg r) ∧
        (s.opcodeByte = 0x55 → if s.fl = .equal then t.pc = s.reg r else t.pc.toNat = s.pc.toNat + 2) ∧
        (s.opcodeByte = 0x56 →
          if s.fl = .lessThan ∨ s.fl = .greaterThan then t.pc = s.reg r else t.pc.toNat = s.pc.toNat + 2)))

/-- 40_fetch_decode_execute.md R130 (the spec's own decision D1), the transitions out of RUNNING: HLT and nothing else
goes to HALTED, and no step goes back to IDLE. -/
def Obligations.OnlyHltHalts : Prop :=
  ∀ s t : State, step s = .next t →
    t.status ≠ .idle ∧ (t.status = .halted ↔ s.opcodeByte = 0x01)

/-! ### Whole-machine rules: who may write what -/

/-- 10_state.md R49: CMP is the only writer of FL and overwrites it whatever it held; JEQ and JNE are its only readers:
with any other FL, a step of every other instruction does the same. -/
def Obligations.OnlyCmpWritesAndOnlyJumpsReadFlags : Prop :=
  ∀ (s t : State), step s = .next t →
    (s.opcodeByte ≠ 0xA7 → t.fl = s.fl) ∧
    (∀ f : Flag, s.opcodeByte ∉ [0x55, 0x56] →
      step { s with fl := f } =
        .next (if s.opcodeByte = 0xA7 ∧ t.status ≠ .faulted then t else { t with fl := f }))

/-- 41_register_and_output.md R162: PRN alone has an effect outside registers and memory: the output grows by the
register PRN names, or stays. -/
def Obligations.OnlyPrnEmits : Prop :=
  ∀ s t : State, step s = .next t →
    t.out = s.out ∨ (s.opcodeByte = 0x47 ∧ ∃ r, s.operand1 = regByte r ∧ t.out = s.out ++ [s.reg r])

/-- 20_memory.md R72, the writers: a byte that a step changes is the one below the stack pointer, and the instruction is
PUSH or CALL. -/
def Obligations.OnlyPushAndCallStore : Prop :=
  ∀ (s t : State) (a : Byte), step s = .next t → t.mem.read a ≠ s.mem.read a →
    s.opcodeByte ∈ [0x45, 0x50] ∧ a = s.sp - 1

/-- 10_state.md R33, derived in the spec, the column "writes": a register that a step changes is one that the table
gives the instruction. -/
def Obligations.OnlyListedRegistersAreWritten : Prop :=
  ∀ (s t : State) (r : RegIndex), step s = .next t → t.reg r ≠ s.reg r →
    (s.opcodeByte ∈ [0x82, 0xA0, 0xA2] ∧ s.operand1 = regByte r) ∨
    (s.opcodeByte ∈ [0x45, 0x50, 0x11] ∧ r = 7) ∨
    (s.opcodeByte = 0x46 ∧ (r = 7 ∨ s.operand1 = regByte r))

/-- 20_memory.md R84, the spec's own decision D23: a fetch sees the byte the PUSH or CALL before it wrote. -/
def Obligations.NextFetchSeesThePushedByte : Prop :=
  ∀ (s t u : State) (r : RegIndex), s.mem.wf = true → step s = .next t → t.pc = s.sp - 1 → step t = .next u →
    s.operand1 = regByte r →
    (s.opcodeByte = 0x45 → u.ir = s.reg r) ∧ (s.opcodeByte = 0x50 → u.ir = s.pc + 2)

/-! ### Each instruction's rule, whole: encoding, effect, everything else unchanged, and its faults in order

The conditions of BAD_REGISTER, FETCH_RANGE, PC_RANGE and of the two stack faults are in each rule's text; the spec marks
them as its own decisions (D5, D11, D12, D9, D10). -/

/-- 41_register_and_output.md R160. -/
def Obligations.LdiLoadsItsImmediate : Prop :=
  ∀ s : State, s.status = .running → s.mem.read s.pc = 0x82 →
    OperandFaultsRI s ∧
    ∀ r, s.operand1 = regByte r →
      (s.pc = 0xFD → step s = .next (s.faultStop .pcRange 0x00)) ∧
      (s.pc.toNat < 0xFD →
        step s = .next { s with ir := 0x82, regs := s.regs.set r s.operand2, pc := s.pc + 3 })

/-- 41_register_and_output.md R161. -/
def Obligations.PrnEmitsItsRegister : Prop :=
  ∀ s : State, s.status = .running → s.mem.read s.pc = 0x47 →
    OperandFaultsR s ∧
    ∀ r, s.operand1 = regByte r →
      (s.pc = 0xFE → step s = .next (s.faultStop .pcRange 0x00)) ∧
      (s.pc.toNat < 0xFE → step s = .next { s with ir := 0x47, out := s.out ++ [s.reg r], pc := s.pc + 2 })

/-- 42_stack.md R172. That `PUSH R7` stores the old pointer is the spec's own decision D7; the opcode byte, D2. -/
def Obligations.PushStoresBelowTheStackPointer : Prop :=
  ∀ s : State, s.status = .running → s.mem.read s.pc = 0x45 →
    OperandFaultsR s ∧
    ∀ r, s.operand1 = regByte r →
      (s.pc ≠ 0xFF → s.sp = 0x00 → step s = .next (s.faultStop .stackOverflow 0x00)) ∧
      (s.pc = 0xFE → s.sp ≠ 0x00 → step s = .next (s.faultStop .pcRange 0x00)) ∧
      (s.pc.toNat < 0xFE → s.sp ≠ 0x00 →
        step s = .next { s with
          ir := 0x45, regs := s.regs.set 7 (s.sp - 1), mem := s.mem.write (s.sp - 1) (s.reg r), pc := s.pc + 2 })

/-- 42_stack.md R173. That `POP R7` keeps the popped byte is the spec's own decision D8; the opcode byte, D2. -/
def Obligations.PopLoadsTheTopOfStack : Prop :=
  ∀ s : State, s.status = .running → s.mem.read s.pc = 0x46 →
    OperandFaultsR s ∧
    ∀ r, s.operand1 = regByte r →
      (s.pc ≠ 0xFF → s.sp = 0xFF → step s = .next (s.faultStop .stackUnderflow 0xFF)) ∧
      (s.pc = 0xFE → s.sp ≠ 0xFF → step s = .next (s.faultStop .pcRange 0x00)) ∧
      (s.pc.toNat < 0xFE → s.sp ≠ 0xFF →
        step s = .next { s with
          ir := 0x46, regs := (s.regs.set 7 (s.sp + 1)).set r (s.mem.read s.sp), pc := s.pc + 2 })

/-- 43_control_transfer.md R180. That `CALL R7` jumps to the old pointer is the spec's own decision D7; the opcode byte,
D2. -/
def Obligations.CallPushesItsReturnAddress : Prop :=
  ∀ s : State, s.status = .running → s.mem.read s.pc = 0x50 →
    OperandFaultsR s ∧
    ∀ r, s.operand1 = regByte r →
      (s.pc ≠ 0xFF → s.sp = 0x00 → step s = .next (s.faultStop .stackOverflow 0x00)) ∧
      (s.pc = 0xFE → s.sp ≠ 0x00 → step s = .next (s.faultStop .pcRange 0x00)) ∧
      (s.pc.toNat < 0xFE → s.sp ≠ 0x00 →
        step s = .next { s with
          ir := 0x50, regs := s.regs.set 7 (s.sp - 1), mem := s.mem.write (s.sp - 1) (s.pc + 2), pc := s.reg r })

/-- 43_control_transfer.md R181. The opcode byte is the spec's own decision D2. -/
def Obligations.RetJumpsToThePoppedByte : Prop :=
  ∀ s : State, s.status = .running → s.mem.read s.pc = 0x11 →
    (s.sp = 0xFF → step s = .next (s.faultStop .stackUnderflow 0xFF)) ∧
    (s.sp ≠ 0xFF →
      step s = .next { s with ir := 0x11, regs := s.regs.set 7 (s.sp + 1), pc := s.mem.read s.sp })

/-- 43_control_transfer.md R182. The opcode byte is the spec's own decision D2. -/
def Obligations.JmpGoesToItsRegister : Prop :=
  ∀ s : State, s.status = .running → s.mem.read s.pc = 0x54 →
    OperandFaultsR s ∧
    ∀ r, s.operand1 = regByte r → s.pc ≠ 0xFF → step s = .next { s with ir := 0x54, pc := s.reg r }

/-- 43_control_transfer.md R184. The opcode byte is the spec's own decision D2. -/
def Obligations.JeqJumpsWhenEqual : Prop :=
  ∀ s : State, s.status = .running → s.mem.read s.pc = 0x55 →
    OperandFaultsR s ∧
    ∀ r, s.operand1 = regByte r →
      (s.pc ≠ 0xFF → s.fl = .equal → step s = .next { s with ir := 0x55, pc := s.reg r }) ∧
      (s.pc = 0xFE → s.fl ≠ .equal → step s = .next (s.faultStop .pcRange 0x00)) ∧
      (s.pc.toNat < 0xFE → s.fl ≠ .equal → step s = .next { s with ir := 0x55, pc := s.pc + 2 })

/-- 43_control_transfer.md R185. Not taken in Unset: the spec's own decision D4; the opcode byte, D2. -/
def Obligations.JneJumpsWhenLessOrGreater : Prop :=
  ∀ s : State, s.status = .running → s.mem.read s.pc = 0x56 →
    OperandFaultsR s ∧
    ∀ r, s.operand1 = regByte r →
      (s.pc ≠ 0xFF → s.fl = .lessThan ∨ s.fl = .greaterThan → step s = .next { s with ir := 0x56, pc := s.reg r }) ∧
      (s.pc = 0xFE → s.fl = .equal ∨ s.fl = .unset → step s = .next (s.faultStop .pcRange 0x00)) ∧
      (s.pc.toNat < 0xFE → s.fl = .equal ∨ s.fl = .unset → step s = .next { s with ir := 0x56, pc := s.pc + 2 })

/-- 44_alu.md R201. The opcode byte is the spec's own decision D2. -/
def Obligations.AddWritesTheSumModulo256 : Prop :=
  ∀ s : State, s.status = .running → s.mem.read s.pc = 0xA0 →
    OperandFaultsRR s ∧
    ∀ ra rb, s.operand1 = regByte ra → s.operand2 = regByte rb →
      (s.pc = 0xFD → step s = .next (s.faultStop .pcRange 0x00)) ∧
      (s.pc.toNat < 0xFD →
        step s = .next { s with
          ir := 0xA0
          regs := s.regs.set ra (BitVec.ofNat 8 (((s.reg ra).toNat + (s.reg rb).toNat) % 256))
          pc := s.pc + 3 })

/-- 44_alu.md R202. The opcode byte is the spec's own decision D2. -/
def Obligations.MulWritesTheProductModulo256 : Prop :=
  ∀ s : State, s.status = .running → s.mem.read s.pc = 0xA2 →
    OperandFaultsRR s ∧
    ∀ ra rb, s.operand1 = regByte ra → s.operand2 = regByte rb →
      (s.pc = 0xFD → step s = .next (s.faultStop .pcRange 0x00)) ∧
      (s.pc.toNat < 0xFD →
        step s = .next { s with
          ir := 0xA2
          regs := s.regs.set ra (BitVec.ofNat 8 (((s.reg ra).toNat * (s.reg rb).toNat) % 256))
          pc := s.pc + 3 })

/-- 44_alu.md R203. The opcode byte is the spec's own decision D2. -/
def Obligations.CmpRecordsTheUnsignedOrder : Prop :=
  ∀ s : State, s.status = .running → s.mem.read s.pc = 0xA7 →
    OperandFaultsRR s ∧
    ∀ ra rb, s.operand1 = regByte ra → s.operand2 = regByte rb →
      (s.pc = 0xFD → step s = .next (s.faultStop .pcRange 0x00)) ∧
      (s.pc.toNat < 0xFD →
        ((s.reg ra).toNat < (s.reg rb).toNat →
          step s = .next { s with ir := 0xA7, fl := .lessThan, pc := s.pc + 3 }) ∧
        ((s.reg rb).toNat < (s.reg ra).toNat →
          step s = .next { s with ir := 0xA7, fl := .greaterThan, pc := s.pc + 3 }) ∧
        ((s.reg ra).toNat = (s.reg rb).toNat →
          step s = .next { s with ir := 0xA7, fl := .equal, pc := s.pc + 3 }))

/-- 45_halt.md R220, at every address. The wrap at 0xFF is the spec's own decision D15. -/
def Obligations.HltStopsTheCore : Prop :=
  ∀ s : State, s.status = .running → s.mem.read s.pc = 0x01 →
    step s = .next { s with ir := 0x01, status := .halted, pc := BitVec.ofNat 8 ((s.pc.toNat + 1) % 256) }

/-! ### Completion: exec answers a next state, under conditions on the state and operands alone -/

/-- LDI, ADD and MUL complete wherever their successor is an address, for every register (R160, R201, R202). -/
def Obligations.LdiAddAndMulComplete : Prop :=
  ∀ (s : State) (ra rb : RegIndex) (imm : Byte), s.pc.toNat + 3 ≤ 0xFF →
    exec (.ldi (regByte ra) imm) s = .next { s with regs := s.regs.set ra imm, pc := s.pc + 3 } ∧
    exec (.add (regByte ra) (regByte rb)) s = .next { s with
      regs := s.regs.set ra (BitVec.ofNat 8 (((s.reg ra).toNat + (s.reg rb).toNat) % 256)), pc := s.pc + 3 } ∧
    exec (.mul (regByte ra) (regByte rb)) s = .next { s with
      regs := s.regs.set ra (BitVec.ofNat 8 (((s.reg ra).toNat * (s.reg rb).toNat) % 256)), pc := s.pc + 3 }

/-- CMP completes wherever its successor is an address, in exactly one of three states of FL (R203, R204). -/
def Obligations.CmpCompletes : Prop :=
  ∀ (s : State) (ra rb : RegIndex), s.pc.toNat + 3 ≤ 0xFF →
    exec (.cmp (regByte ra) (regByte rb)) s = .next { s with
      fl := if (s.reg ra).toNat < (s.reg rb).toNat then .lessThan
            else if (s.reg ra).toNat = (s.reg rb).toNat then .equal
            else .greaterThan
      pc := s.pc + 3 }

/-- PRN completes wherever its successor is an address: the output never blocks (R161, R163). -/
def Obligations.PrnCompletes : Prop :=
  ∀ (s : State) (r : RegIndex), s.pc.toNat + 2 ≤ 0xFF →
    exec (.prn (regByte r)) s = .next { s with out := s.out ++ [s.reg r], pc := s.pc + 2 }

/-- PUSH and CALL complete wherever the stack pointer is not 0x00 and the successor is an address; both store at
`SP - 1` by the same push step (42_stack.md R171, R172, R180). -/
def Obligations.PushAndCallComplete : Prop :=
  ∀ (s : State) (r : RegIndex), s.sp ≠ 0x00 → s.pc.toNat + 2 ≤ 0xFF →
    exec (.push (regByte r)) s = .next { s with
      regs := s.regs.set 7 (s.sp - 1), mem := s.mem.write (s.sp - 1) (s.reg r), pc := s.pc + 2 } ∧
    exec (.call (regByte r)) s = .next { s with
      regs := s.regs.set 7 (s.sp - 1), mem := s.mem.write (s.sp - 1) (s.pc + 2), pc := s.reg r }

/-- RET completes wherever the stack pointer is not 0xFF, and POP where its successor is an address as well; both take
the byte at `SP` by the same pop step (42_stack.md R171, R173, R181). -/
def Obligations.PopAndRetComplete : Prop :=
  ∀ (s : State) (r : RegIndex), s.sp ≠ 0xFF →
    (s.pc.toNat + 2 ≤ 0xFF →
      exec (.pop (regByte r)) s = .next { s with
        regs := (s.regs.set 7 (s.sp + 1)).set r (s.mem.read s.sp), pc := s.pc + 2 }) ∧
    exec .ret s = .next { s with regs := s.regs.set 7 (s.sp + 1), pc := s.mem.read s.sp }

/-- 43_control_transfer.md R183, the whole table of JEQ and JNE, Unset included (the spec's own decision D4). A taken
jump completes at every address, one not taken wherever its successor is an address. -/
def Obligations.ConditionalJumpsFollowTheFlagTable : Prop :=
  ∀ (s : State) (r : RegIndex),
    let jumped : State := { s with pc := s.reg r }
    let continued : State := { s with pc := s.pc + 2 }
    (s.fl = .equal → exec (.jeq (regByte r)) s = .next jumped) ∧
    (s.fl = .lessThan → exec (.jne (regByte r)) s = .next jumped) ∧
    (s.fl = .greaterThan → exec (.jne (regByte r)) s = .next jumped) ∧
    (s.pc.toNat + 2 ≤ 0xFF →
      (s.fl = .lessThan → exec (.jeq (regByte r)) s = .next continued) ∧
      (s.fl = .greaterThan → exec (.jeq (regByte r)) s = .next continued) ∧
      (s.fl = .unset → exec (.jeq (regByte r)) s = .next continued) ∧
      (s.fl = .equal → exec (.jne (regByte r)) s = .next continued) ∧
      (s.fl = .unset → exec (.jne (regByte r)) s = .next continued))

/-- JMP and HLT complete in every state: no target is out of range, and HLT is no Continue (R182, R186, R220). -/
def Obligations.JmpAndHltAlwaysComplete : Prop :=
  ∀ (s : State) (r : RegIndex),
    exec (.jmp (regByte r)) s = .next { s with pc := s.reg r } ∧
    exec .hlt s = .next { s with status := .halted, pc := BitVec.ofNat 8 ((s.pc.toNat + 1) % 256) }

/-! ### Frames: what an instruction leaves unchanged, on every operand byte, faults included -/

/-- LDI, ADD and MUL change no register but the first operand's, no flag, no byte of memory, no output and not IR. -/
def Obligations.LdiAddAndMulFrame : Prop :=
  ∀ (s t : State) (ra b : Byte) (dest : RegIndex),
    exec (.ldi ra b) s = .next t ∨ exec (.add ra b) s = .next t ∨ exec (.mul ra b) s = .next t →
    (ra = regByte dest → SameRegsExcept [dest] s t) ∧ (7 < ra.toNat → SameRegsExcept [] s t) ∧
    t.fl = s.fl ∧ SameMemory s t ∧ t.out = s.out ∧ t.ir = s.ir ∧ SameControlUnlessFault s t

/-- CMP, PRN, JMP, JEQ and JNE change no register, no byte of memory and not IR; only CMP may change FL and only PRN the
output. -/
def Obligations.CmpPrnAndJumpsFrame : Prop :=
  ∀ (s t : State) (i : Instr) (r b : Byte), i ∈ [.cmp r b, .prn r, .jmp r, .jeq r, .jne r] → exec i s = .next t →
    SameRegsExcept [] s t ∧ SameMemory s t ∧ t.ir = s.ir ∧ SameControlUnlessFault s t ∧
    (i ≠ .cmp r b → t.fl = s.fl) ∧ (i ≠ .prn r → t.out = s.out)

/-- PUSH and CALL change no register but the stack pointer, no flag, no output, not IR, and no byte of memory outside
the one stored to, which is `SP - 1` (20_memory.md R72). -/
def Obligations.PushAndCallFrame : Prop :=
  ∀ (s t : State) (r : Byte), exec (.push r) s = .next t ∨ exec (.call r) s = .next t →
    SameRegsExcept [7] s t ∧ (∀ a : Byte, a ≠ s.pushAddress → t.mem.read a = s.mem.read a) ∧
    t.fl = s.fl ∧ t.out = s.out ∧ t.ir = s.ir ∧ SameControlUnlessFault s t

/-- POP and RET change no register but the stack pointer and POP's operand, and nothing of flags, memory, output, IR. -/
def Obligations.PopAndRetFrame : Prop :=
  ∀ (s t : State) (r : Byte) (dest : RegIndex),
    (exec (.pop r) s = .next t →
      (r = regByte dest → SameRegsExcept [7, dest] s t) ∧ (7 < r.toNat → SameRegsExcept [] s t)) ∧
    (exec .ret s = .next t → SameRegsExcept [7] s t) ∧
    (exec (.pop r) s = .next t ∨ exec .ret s = .next t →
      SameMemory s t ∧ t.fl = s.fl ∧ t.out = s.out ∧ t.ir = s.ir ∧ SameControlUnlessFault s t)

/-- HLT changes the status and the pc and nothing else: registers, FL, memory, output, IR and fault record are kept. -/
def Obligations.HltFrame : Prop :=
  ∀ s t : State, exec .hlt s = .next t →
    SameRegsExcept [] s t ∧ SameMemory s t ∧ t.fl = s.fl ∧ t.out = s.out ∧ t.ir = s.ir ∧
    t.faultCause = s.faultCause ∧ t.faultPc = s.faultPc ∧ t.faultOpcode = s.faultOpcode ∧ t.faultInfo = s.faultInfo

/-! ### Laws of two instructions -/

/-- 42_stack.md R174, derived in the spec, both cases: PUSH then POP, neither faulting, carries the value and restores
the pointer; into register 7 the pointer takes the value. -/
def Obligations.PushThenPopIsARoundTrip : Prop :=
  ∀ (s t u : State) (i j : RegIndex), s.mem.wf = true →
    exec (.push (regByte i)) s = .next t → t.status ≠ .faulted →
    exec (.pop (regByte j)) t = .next u → u.status ≠ .faulted →
    u.reg j = s.reg i ∧ (j ≠ 7 → u.sp = s.sp) ∧ (j = 7 → u.sp = s.reg i)

/-- 43_control_transfer.md R187, derived in the spec: a CALL that does not fault goes to its register's value, and a
later RET that finds the pointer and the byte on top as the CALL left them completes, at the address after the CALL. -/
def Obligations.RetReturnsPastTheCall : Prop :=
  ∀ (s t u : State) (r : RegIndex), s.mem.wf = true →
    exec (.call (regByte r)) s = .next t → t.status ≠ .faulted →
    t.pc = s.reg r ∧ t.mem.read t.sp = s.pc + 2 ∧
    (u.sp = t.sp → u.mem.read u.sp = t.mem.read t.sp →
      ∃ v, exec .ret u = .next v ∧ v.pc.toNat = s.pc.toNat + 2 ∧ v.sp = s.sp ∧ v.status = u.status)

/-- 44_alu.md R205, derived in the spec: the algebra a proof may use. -/
def Obligations.AluObeysModularAlgebra : Prop :=
  ∀ a b c : Byte,
    aluAdd a b = aluAdd b a ∧ aluMul a b = aluMul b a ∧
    aluAdd (aluAdd a b) c = aluAdd a (aluAdd b c) ∧ aluMul (aluMul a b) c = aluMul a (aluMul b c) ∧
    aluAdd a 0 = a ∧ aluMul a 1 = a ∧
    (aluAdd a 0xFF).toNat = (a.toNat + 255) % 256 ∧ aluAdd a 0xFF = a - 1 ∧
    (compareFlag a b = .lessThan ↔ compareFlag b a = .greaterThan)

/-! ### Memory -/

/-- Two memories in canonical form that read the same at every address are equal: equal memories are equal data. The
form is the model's; the 256 bytes are 20_memory.md R70's. -/
def Obligations.CanonicalMemoriesWithEqualReadsAreEqual : Prop :=
  ∀ m n : Memory, m.wf = true → n.wf = true → (∀ a : Byte, m.read a = n.read a) → m = n

/-! ### Reset and the host's transactions -/

/-- 70_reset_and_hazards.md R270: the reset state, piece by piece. -/
def Obligations.ResetGivesEveryPieceItsValue : Prop :=
  (∀ r : RegIndex, State.reset.reg r = if r.val = 7 then 0xF4 else 0x00) ∧
  State.reset.pc = 0x00 ∧ State.reset.ir = 0x00 ∧ State.reset.fl = .unset ∧
  (∀ a : Byte, State.reset.mem.read a = 0x00) ∧ State.reset.status = .idle ∧
  State.reset.faultCause = .none ∧ State.reset.faultPc = 0x00 ∧ State.reset.faultOpcode = 0x00 ∧
  State.reset.faultInfo = 0x00 ∧ State.reset.out = []

/-- 10_state.md R61, with the permission of R60 (the spec's own decision D20): `load` copies any bytes verbatim from
address 0, keeps the bytes above them and everything else, and loading again changes nothing. -/
def Obligations.LoadCopiesVerbatimAndIsIdempotent : Prop :=
  ∀ (s : State) (p : List Byte), s.mem.wf = true →
    ((load p s).isSome = true ↔ s.status = .idle ∧ p.length ≤ 256) ∧
    ∀ t, load p s = some t →
      (∀ (k : Nat) (hk : k < p.length), t.mem.read (BitVec.ofNat 8 k) = p[k]) ∧
      (∀ a : Byte, p.length ≤ a.toNat → t.mem.read a = s.mem.read a) ∧
      t = { s with mem := t.mem } ∧
      load p t = some t

/-- 10_state.md R60 (the spec's own decisions D20, D37), two rows: `reset()` is permitted in any status and gives the
reset state; `start()` is permitted exactly in IDLE, and it changes the status to RUNNING and nothing else, so execution
begins at the current pc. -/
def Obligations.ResetAlwaysAndStartFromIdleOnly : Prop :=
  ∀ s : State,
    hostReset s = State.reset ∧
    (s.status = .idle → start s = some { s with status := .running }) ∧
    (s.status ≠ .idle → start s = none)

/-- 60_exceptions.md R245, the spec's own decision D16: HALTED and FAULTED are final: no step has a next state,
`start()` and `load` are refused, and `reset()` gives the reset state. -/
def Obligations.StoppedCoreWaitsForReset : Prop :=
  ∀ s : State, s.status = .halted ∨ s.status = .faulted →
    (∀ t, step s ≠ .next t) ∧ start s = none ∧ (∀ p, load p s = none) ∧ hostReset s = State.reset

/-- 70_reset_and_hazards.md R272, its last sentence: started without a `load`, the core stops at once with
UNKNOWN_OPCODE at address 0x00. -/
def Obligations.StartWithoutLoadStopsAtZero : Prop :=
  ∃ t u : State, start State.reset = some t ∧ step t = .next u ∧
    u.status = .faulted ∧ u.faultCause = .unknownOpcode ∧ u.faultPc = 0x00 ∧ u.faultOpcode = 0x00 ∧ u.out = []

/-- 10_state.md R60 (the spec's own decision D37), `observe()`: all 256 bytes of memory, every register and the output
are shown; FL by the code R50 gives its state (D3; the bit places are UNVERIFIED, log entry 3), the status by the code of
R52 and the fault cause by the code of 60_exceptions.md R230 (D17). -/
def Obligations.ObserveShowsTheWholeState : Prop :=
  ∀ s : State,
    (observe s).mem.length = 256 ∧ (∀ a : Byte, (observe s).mem[a.toNat]? = some (s.mem.read a)) ∧
    (observe s).regs = s.regs ∧ (observe s).pc = s.pc ∧ (observe s).ir = s.ir ∧ (observe s).out = s.out ∧
    (observe s).faultPc = s.faultPc ∧ (observe s).faultOpcode = s.faultOpcode ∧
    (observe s).faultInfo = s.faultInfo ∧
    (observe s).fl = (match s.fl with
      | .unset => 0x00
      | .equal => 0x01
      | .greaterThan => 0x02
      | .lessThan => 0x04) ∧
    (observe s).status = (match s.status with
      | .idle => 0
      | .running => 1
      | .halted => 2
      | .faulted => 3) ∧
    (observe s).faultCause = (match s.faultCause with
      | .none => 0
      | .unknownOpcode => 1
      | .fetchRange => 2
      | .badRegister => 3
      | .stackOverflow => 4
      | .stackUnderflow => 5
      | .pcRange => 6
      | .aluUnsupported => 7) ∧
    ((observe s).final = true ↔ s.status = .halted ∨ s.status = .faulted)

/-! ### The invariant -/

/-- The reset state meets the invariant. -/
def Obligations.ResetMeetsTheInvariant : Prop := State.reset.Inv

/-- Every step keeps the invariant, from every state that has it, reachable or not. The invariant is the model's; its
clauses rest on 10_state.md R53, 45_halt.md R220 and 60_exceptions.md R241. -/
def Obligations.StepKeepsTheInvariant : Prop :=
  ∀ s t : State, s.Inv → step s = .next t → t.Inv

/-- The host's transactions keep the invariant (10_state.md R60). -/
def Obligations.HostTransactionsKeepTheInvariant : Prop :=
  ∀ s t : State, s.Inv →
    (hostReset s).Inv ∧ (∀ p, load p s = some t → t.Inv) ∧ (start s = some t → t.Inv)

/-- Every state a host can bring the core to meets the invariant; so, whatever is loaded, the fault record describes
the first and only fault of the run (60_exceptions.md R244, derived in the spec). The invariant is the model's. -/
def Obligations.ReachableStatesMeetTheInvariant : Prop :=
  ∀ s : State, Reachable s → s.Inv
end

