-- ==== Sys2Proof/Laws/Decode.lean ====
section
/-! SUPPORT. The small lemmas of the decoder: each operation's opcode byte dispatches to it and to nothing else. -/

namespace Sys2Proof

theorem mem_all (o : Op) : o ∈ Op.all := by cases o <;> decide

@[simp] theorem dispatch_opcode (o : Op) : dispatch o.opcode = some o := by cases o <;> decide

theorem opcode_of_dispatch {op : Byte} {o : Op} (h : dispatch op = some o) : op = o.opcode := by
  have := List.find?_some h
  simpa using (beq_iff_eq.mp this).symm

theorem dispatch_eq_none {op : Byte} : dispatch op = none ↔ ∀ o : Op, o.opcode ≠ op := by
  simp [dispatch, List.find?_eq_none, mem_all]

/-- The length rule agrees with the format of every recognized opcode. -/
theorem lengthOf_opcode (o : Op) : lengthOf o.opcode = o.format.operandCount + 1 := by cases o <;> decide

theorem decode_cons_of_none {op : Byte} (h : dispatch op = none) (rest : List Byte) :
    decode (op :: rest) = .error (.unknownOpcode op) := by
  simp [decode, h]

theorem decode_opcode_cons (o : Op) (rest : List Byte) :
    decode (o.opcode :: rest) =
      match assemble o rest with
      | none => .error (.missingOperand o.opcode)
      | some found => .ok found := by
  cases h : assemble o rest <;> simp [decode, h]

end Sys2Proof
end

