-- ==== Sys2Proof/Laws/Memory.lean ====
section
/-! SUPPORT. The laws of memory: a read after a write, and that every memory operation keeps the canonical form. -/

namespace Sys2Proof.Machine.Memory

theorem wfFrom_mono {lo lo' : Nat} (h : lo' ≤ lo) {m : Memory} (hm : wfFrom lo m = true) : wfFrom lo' m = true := by
  cases m with
  | nil => rfl
  | cons c rest =>
    simp only [wfFrom, Bool.and_eq_true, decide_eq_true_eq] at hm ⊢
    exact ⟨⟨⟨le_trans h hm.1.1.1, hm.1.1.2⟩, hm.1.2⟩, hm.2⟩

/-- A key below every listed one reads as an unlisted byte. -/
theorem lookup_of_wfFrom {lo a : Nat} (h : a < lo) {m : Memory} (hm : wfFrom lo m = true) :
    lookup m a = Config.unlistedByte := by
  induction m generalizing lo with
  | nil => rfl
  | cons c rest ih =>
    simp only [wfFrom, Bool.and_eq_true, decide_eq_true_eq] at hm
    have hne : c.1 ≠ a := by omega
    simp only [lookup, hne, if_false]
    exact ih (by omega) hm.2

theorem wfFrom_cons {lo a : Nat} {v : Byte} {rest : Memory} (hlo : lo ≤ a) (ha : a < Config.memSize)
    (hr : wfFrom (a + 1) rest = true) : wfFrom lo (cons a v rest) = true := by
  unfold cons
  split
  · exact wfFrom_mono (by omega) hr
  · simp_all [wfFrom]

/-- Inserting keeps the canonical form. -/
theorem wfFrom_insert {lo a : Nat} (hlo : lo ≤ a) (ha : a < Config.memSize) (v : Byte) {m : Memory}
    (hm : wfFrom lo m = true) : wfFrom lo (insert m a v) = true := by
  induction m generalizing lo with
  | nil => exact wfFrom_cons hlo ha rfl
  | cons c rest ih =>
    simp only [wfFrom, Bool.and_eq_true, decide_eq_true_eq] at hm
    simp only [insert]
    split
    · refine wfFrom_cons hlo ha ?_
      simp only [wfFrom, Bool.and_eq_true, decide_eq_true_eq]
      exact ⟨⟨⟨by omega, hm.1.1.2⟩, hm.1.2⟩, hm.2⟩
    · split
      · rename_i _ heq
        exact wfFrom_cons hlo ha (heq ▸ hm.2)
      · simp only [wfFrom, Bool.and_eq_true, decide_eq_true_eq]
        exact ⟨hm.1, ih (by omega) hm.2⟩

theorem lookup_cons_of_ne {a c : Nat} (v : Byte) (rest : Memory) (h : a ≠ c) :
    lookup (cons a v rest) c = lookup rest c := by
  unfold cons
  split
  · rfl
  · simp [lookup, h]

theorem lookup_insert_of_ne {a c : Nat} (h : a ≠ c) (v : Byte) (m : Memory) :
    lookup (insert m a v) c = lookup m c := by
  induction m with
  | nil => exact lookup_cons_of_ne v [] h
  | cons d rest ih =>
    simp only [insert]
    split
    · exact lookup_cons_of_ne v _ h
    · split
      · rename_i _ heq
        rw [lookup_cons_of_ne v rest h]
        simp [lookup, ← heq, h]
      · simp only [lookup, ih]

theorem lookup_cons_same {lo a : Nat} (h : a < lo) (v : Byte) {rest : Memory} (hr : wfFrom lo rest = true) :
    lookup (cons a v rest) a = v := by
  unfold cons
  split
  · rename_i hv
    rw [lookup_of_wfFrom h hr, hv]
  · simp [lookup]

theorem lookup_insert_same {lo : Nat} (a : Nat) (v : Byte) {m : Memory} (hm : wfFrom lo m = true) :
    lookup (insert m a v) a = v := by
  induction m generalizing lo with
  | nil => exact lookup_cons_same (Nat.lt_succ_self a) v rfl
  | cons d rest ih =>
    have hm' := hm
    simp only [wfFrom, Bool.and_eq_true, decide_eq_true_eq] at hm
    simp only [insert]
    split
    · refine lookup_cons_same (lo := d.1) (by omega) v ?_
      simp only [wfFrom, Bool.and_eq_true, decide_eq_true_eq]
      exact ⟨⟨⟨le_refl _, hm.1.1.2⟩, hm.1.2⟩, hm.2⟩
    · split
      · exact lookup_cons_same (lo := d.1 + 1) (by omega) v hm.2
      · rename_i _ hne
        have : d.1 ≠ a := fun e => hne e.symm
        simp only [lookup, this, if_false]
        exact ih hm.2

/-! ### The laws of `read` and `write` (20_memory.md R74, R79) -/

theorem wf_write {m : Memory} (hm : m.wf = true) (a v : Byte) : (m.write a v).wf = true :=
  wfFrom_insert (Nat.zero_le _) a.isLt v hm

theorem read_write_same {m : Memory} (hm : m.wf = true) (a v : Byte) : (m.write a v).read a = v :=
  lookup_insert_same a.toNat v hm

theorem read_write_of_ne {a b : Byte} (h : b ≠ a) (m : Memory) (v : Byte) : (m.write a v).read b = m.read b :=
  lookup_insert_of_ne (fun e => h (BitVec.eq_of_toNat_eq e.symm)) v m

theorem wf_writeFrom {m : Memory} (hm : m.wf = true) (a : Nat) (bytes : List Byte) :
    (m.writeFrom a bytes).wf = true := by
  induction bytes generalizing m a with
  | nil => exact hm
  | cons v rest ih =>
    simp only [writeFrom]
    split
    · exact ih (wf_write hm _ v) (a + 1)
    · exact hm

/-- Writing a run of bytes that fits puts each byte at its address and leaves every other address alone. -/
theorem read_writeFrom {m : Memory} (hm : m.wf = true) (a : Nat) (p : List Byte) (hp : a + p.length ≤ 256) (b : Byte) :
    (m.writeFrom a p).read b =
      if h : a ≤ b.toNat ∧ b.toNat - a < p.length then p[b.toNat - a]'h.2 else m.read b := by
  induction p generalizing m a with
  | nil => simp [writeFrom]
  | cons v p ih =>
    simp only [List.length_cons] at hp
    have ha : a < Config.memSize := by simp only [Config.memSize]; omega
    rw [writeFrom, if_pos ha, ih (wf_write hm _ _) _ (by omega)]
    by_cases hb : b.toNat = a
    · have : BitVec.ofNat 8 a = b := by rw [← hb]; simp
      simp [this, read_write_same hm, hb]
    · have hne : b ≠ BitVec.ofNat 8 a := by
        intro e
        apply hb
        rw [e, BitVec.toNat_ofNat]
        omega
      rw [read_write_of_ne hne]
      by_cases hlt : a < b.toNat
      · by_cases h2 : b.toNat - (a + 1) < p.length
        · rw [dif_pos ⟨by omega, h2⟩, dif_pos ⟨by omega, by simp; omega⟩]
          have : b.toNat - a = (b.toNat - (a + 1)) + 1 := by omega
          simp [this]
        · rw [dif_neg (by omega), dif_neg (by simp; omega)]
      · rw [dif_neg (by omega), dif_neg (by omega)]

@[simp] theorem read_nil (a : Byte) : read [] a = 0x00 := rfl

@[simp] theorem wf_nil : wf [] = true := rfl

/-! ### `bytesFrom` -/

@[simp] theorem bytesFrom_zero (m : Memory) (a : Nat) : m.bytesFrom a 0 = [] := rfl

theorem bytesFrom_succ {a : Nat} (h : a ≤ 0xFF) (m : Memory) (n : Nat) :
    m.bytesFrom a (n + 1) = m.read (BitVec.ofNat 8 a) :: m.bytesFrom (a + 1) n := by
  simp [bytesFrom, h]

theorem bytesFrom_of_gt {a : Nat} (h : 0xFF < a) (m : Memory) (n : Nat) : m.bytesFrom a n = [] := by
  cases n with
  | zero => rfl
  | succ n => simp [bytesFrom, Nat.not_le.mpr h]

/-- A window that fits in the address space has as many bytes as were asked for. -/
theorem length_bytesFrom (m : Memory) (a n : Nat) (h : a + n ≤ 256) : (m.bytesFrom a n).length = n := by
  induction n generalizing a with
  | zero => rfl
  | succ n ih => rw [bytesFrom_succ (by omega)]; simp [ih (a + 1) (by omega)]

/-- Each byte of such a window is the byte read at its address. -/
theorem getElem?_bytesFrom (m : Memory) (a n k : Nat) (hk : k < n) (h : a + n ≤ 256) :
    (m.bytesFrom a n)[k]? = some (m.read (BitVec.ofNat 8 (a + k))) := by
  induction n generalizing a k with
  | zero => omega
  | succ n ih =>
    rw [bytesFrom_succ (by omega)]
    cases k with
    | zero => simp
    | succ k =>
      rw [List.getElem?_cons_succ, ih (a + 1) k (by omega) (by omega), show a + 1 + k = a + (k + 1) by omega]

end Sys2Proof.Machine.Memory
end

