-- ==== Sys2Proof/Laws/State.lean ====
section
/-! SUPPORT. One lemma per field of State per update of State, so that no proof unfolds a record update; and reading a
register after each update. -/

namespace Sys2Proof.Machine.State

/-! ### setReg -/

@[simp] theorem setReg_regs (s : State) (r : RegIndex) (v : Byte) : (s.setReg r v).regs = s.regs.set r v := rfl
@[simp] theorem setReg_pc (s : State) (r : RegIndex) (v : Byte) : (s.setReg r v).pc = s.pc := rfl
@[simp] theorem setReg_ir (s : State) (r : RegIndex) (v : Byte) : (s.setReg r v).ir = s.ir := rfl
@[simp] theorem setReg_fl (s : State) (r : RegIndex) (v : Byte) : (s.setReg r v).fl = s.fl := rfl
@[simp] theorem setReg_mem (s : State) (r : RegIndex) (v : Byte) : (s.setReg r v).mem = s.mem := rfl
@[simp] theorem setReg_status (s : State) (r : RegIndex) (v : Byte) : (s.setReg r v).status = s.status := rfl
@[simp] theorem setReg_faultCause (s : State) (r : RegIndex) (v : Byte) : (s.setReg r v).faultCause = s.faultCause := rfl
@[simp] theorem setReg_faultPc (s : State) (r : RegIndex) (v : Byte) : (s.setReg r v).faultPc = s.faultPc := rfl
@[simp] theorem setReg_faultOpcode (s : State) (r : RegIndex) (v : Byte) : (s.setReg r v).faultOpcode = s.faultOpcode := rfl
@[simp] theorem setReg_faultInfo (s : State) (r : RegIndex) (v : Byte) : (s.setReg r v).faultInfo = s.faultInfo := rfl
@[simp] theorem setReg_out (s : State) (r : RegIndex) (v : Byte) : (s.setReg r v).out = s.out := rfl

/-! ### setPc -/

@[simp] theorem setPc_regs (s : State) (t : Byte) : (s.setPc t).regs = s.regs := rfl
@[simp] theorem setPc_pc (s : State) (t : Byte) : (s.setPc t).pc = t := rfl
@[simp] theorem setPc_ir (s : State) (t : Byte) : (s.setPc t).ir = s.ir := rfl
@[simp] theorem setPc_fl (s : State) (t : Byte) : (s.setPc t).fl = s.fl := rfl
@[simp] theorem setPc_mem (s : State) (t : Byte) : (s.setPc t).mem = s.mem := rfl
@[simp] theorem setPc_status (s : State) (t : Byte) : (s.setPc t).status = s.status := rfl
@[simp] theorem setPc_faultCause (s : State) (t : Byte) : (s.setPc t).faultCause = s.faultCause := rfl
@[simp] theorem setPc_faultPc (s : State) (t : Byte) : (s.setPc t).faultPc = s.faultPc := rfl
@[simp] theorem setPc_faultOpcode (s : State) (t : Byte) : (s.setPc t).faultOpcode = s.faultOpcode := rfl
@[simp] theorem setPc_faultInfo (s : State) (t : Byte) : (s.setPc t).faultInfo = s.faultInfo := rfl
@[simp] theorem setPc_out (s : State) (t : Byte) : (s.setPc t).out = s.out := rfl

/-! ### setIr -/

@[simp] theorem setIr_regs (s : State) (op : Byte) : (s.setIr op).regs = s.regs := rfl
@[simp] theorem setIr_pc (s : State) (op : Byte) : (s.setIr op).pc = s.pc := rfl
@[simp] theorem setIr_ir (s : State) (op : Byte) : (s.setIr op).ir = op := rfl
@[simp] theorem setIr_fl (s : State) (op : Byte) : (s.setIr op).fl = s.fl := rfl
@[simp] theorem setIr_mem (s : State) (op : Byte) : (s.setIr op).mem = s.mem := rfl
@[simp] theorem setIr_status (s : State) (op : Byte) : (s.setIr op).status = s.status := rfl
@[simp] theorem setIr_faultCause (s : State) (op : Byte) : (s.setIr op).faultCause = s.faultCause := rfl
@[simp] theorem setIr_faultPc (s : State) (op : Byte) : (s.setIr op).faultPc = s.faultPc := rfl
@[simp] theorem setIr_faultOpcode (s : State) (op : Byte) : (s.setIr op).faultOpcode = s.faultOpcode := rfl
@[simp] theorem setIr_faultInfo (s : State) (op : Byte) : (s.setIr op).faultInfo = s.faultInfo := rfl
@[simp] theorem setIr_out (s : State) (op : Byte) : (s.setIr op).out = s.out := rfl

/-! ### setFl -/

@[simp] theorem setFl_regs (s : State) (f : Flag) : (s.setFl f).regs = s.regs := rfl
@[simp] theorem setFl_pc (s : State) (f : Flag) : (s.setFl f).pc = s.pc := rfl
@[simp] theorem setFl_ir (s : State) (f : Flag) : (s.setFl f).ir = s.ir := rfl
@[simp] theorem setFl_fl (s : State) (f : Flag) : (s.setFl f).fl = f := rfl
@[simp] theorem setFl_mem (s : State) (f : Flag) : (s.setFl f).mem = s.mem := rfl
@[simp] theorem setFl_status (s : State) (f : Flag) : (s.setFl f).status = s.status := rfl
@[simp] theorem setFl_faultCause (s : State) (f : Flag) : (s.setFl f).faultCause = s.faultCause := rfl
@[simp] theorem setFl_faultPc (s : State) (f : Flag) : (s.setFl f).faultPc = s.faultPc := rfl
@[simp] theorem setFl_faultOpcode (s : State) (f : Flag) : (s.setFl f).faultOpcode = s.faultOpcode := rfl
@[simp] theorem setFl_faultInfo (s : State) (f : Flag) : (s.setFl f).faultInfo = s.faultInfo := rfl
@[simp] theorem setFl_out (s : State) (f : Flag) : (s.setFl f).out = s.out := rfl

/-! ### setStatus -/

@[simp] theorem setStatus_regs (s : State) (st : Status) : (s.setStatus st).regs = s.regs := rfl
@[simp] theorem setStatus_pc (s : State) (st : Status) : (s.setStatus st).pc = s.pc := rfl
@[simp] theorem setStatus_ir (s : State) (st : Status) : (s.setStatus st).ir = s.ir := rfl
@[simp] theorem setStatus_fl (s : State) (st : Status) : (s.setStatus st).fl = s.fl := rfl
@[simp] theorem setStatus_mem (s : State) (st : Status) : (s.setStatus st).mem = s.mem := rfl
@[simp] theorem setStatus_status (s : State) (st : Status) : (s.setStatus st).status = st := rfl
@[simp] theorem setStatus_faultCause (s : State) (st : Status) : (s.setStatus st).faultCause = s.faultCause := rfl
@[simp] theorem setStatus_faultPc (s : State) (st : Status) : (s.setStatus st).faultPc = s.faultPc := rfl
@[simp] theorem setStatus_faultOpcode (s : State) (st : Status) : (s.setStatus st).faultOpcode = s.faultOpcode := rfl
@[simp] theorem setStatus_faultInfo (s : State) (st : Status) : (s.setStatus st).faultInfo = s.faultInfo := rfl
@[simp] theorem setStatus_out (s : State) (st : Status) : (s.setStatus st).out = s.out := rfl

/-! ### store -/

@[simp] theorem store_regs (s : State) (a v : Byte) : (s.store a v).regs = s.regs := rfl
@[simp] theorem store_pc (s : State) (a v : Byte) : (s.store a v).pc = s.pc := rfl
@[simp] theorem store_ir (s : State) (a v : Byte) : (s.store a v).ir = s.ir := rfl
@[simp] theorem store_fl (s : State) (a v : Byte) : (s.store a v).fl = s.fl := rfl
@[simp] theorem store_mem (s : State) (a v : Byte) : (s.store a v).mem = s.mem.write a v := rfl
@[simp] theorem store_status (s : State) (a v : Byte) : (s.store a v).status = s.status := rfl
@[simp] theorem store_faultCause (s : State) (a v : Byte) : (s.store a v).faultCause = s.faultCause := rfl
@[simp] theorem store_faultPc (s : State) (a v : Byte) : (s.store a v).faultPc = s.faultPc := rfl
@[simp] theorem store_faultOpcode (s : State) (a v : Byte) : (s.store a v).faultOpcode = s.faultOpcode := rfl
@[simp] theorem store_faultInfo (s : State) (a v : Byte) : (s.store a v).faultInfo = s.faultInfo := rfl
@[simp] theorem store_out (s : State) (a v : Byte) : (s.store a v).out = s.out := rfl

/-! ### emit -/

@[simp] theorem emit_regs (s : State) (v : Byte) : (s.emit v).regs = s.regs := rfl
@[simp] theorem emit_pc (s : State) (v : Byte) : (s.emit v).pc = s.pc := rfl
@[simp] theorem emit_ir (s : State) (v : Byte) : (s.emit v).ir = s.ir := rfl
@[simp] theorem emit_fl (s : State) (v : Byte) : (s.emit v).fl = s.fl := rfl
@[simp] theorem emit_mem (s : State) (v : Byte) : (s.emit v).mem = s.mem := rfl
@[simp] theorem emit_status (s : State) (v : Byte) : (s.emit v).status = s.status := rfl
@[simp] theorem emit_faultCause (s : State) (v : Byte) : (s.emit v).faultCause = s.faultCause := rfl
@[simp] theorem emit_faultPc (s : State) (v : Byte) : (s.emit v).faultPc = s.faultPc := rfl
@[simp] theorem emit_faultOpcode (s : State) (v : Byte) : (s.emit v).faultOpcode = s.faultOpcode := rfl
@[simp] theorem emit_faultInfo (s : State) (v : Byte) : (s.emit v).faultInfo = s.faultInfo := rfl
@[simp] theorem emit_out (s : State) (v : Byte) : (s.emit v).out = s.out ++ [v] := rfl

/-! ### push -/

@[simp] theorem push_regs (s : State) (v : Byte) : (s.push v).regs = s.regs.set Config.spIndex s.pushAddress := rfl
@[simp] theorem push_pc (s : State) (v : Byte) : (s.push v).pc = s.pc := rfl
@[simp] theorem push_ir (s : State) (v : Byte) : (s.push v).ir = s.ir := rfl
@[simp] theorem push_fl (s : State) (v : Byte) : (s.push v).fl = s.fl := rfl
@[simp] theorem push_mem (s : State) (v : Byte) : (s.push v).mem = s.mem.write s.pushAddress v := rfl
@[simp] theorem push_status (s : State) (v : Byte) : (s.push v).status = s.status := rfl
@[simp] theorem push_faultCause (s : State) (v : Byte) : (s.push v).faultCause = s.faultCause := rfl
@[simp] theorem push_faultPc (s : State) (v : Byte) : (s.push v).faultPc = s.faultPc := rfl
@[simp] theorem push_faultOpcode (s : State) (v : Byte) : (s.push v).faultOpcode = s.faultOpcode := rfl
@[simp] theorem push_faultInfo (s : State) (v : Byte) : (s.push v).faultInfo = s.faultInfo := rfl
@[simp] theorem push_out (s : State) (v : Byte) : (s.push v).out = s.out := rfl

/-! ### popped -/

@[simp] theorem popped_regs (s : State) : (s.popped).regs = s.regs.set Config.spIndex (s.sp + 1) := rfl
@[simp] theorem popped_pc (s : State) : (s.popped).pc = s.pc := rfl
@[simp] theorem popped_ir (s : State) : (s.popped).ir = s.ir := rfl
@[simp] theorem popped_fl (s : State) : (s.popped).fl = s.fl := rfl
@[simp] theorem popped_mem (s : State) : (s.popped).mem = s.mem := rfl
@[simp] theorem popped_status (s : State) : (s.popped).status = s.status := rfl
@[simp] theorem popped_faultCause (s : State) : (s.popped).faultCause = s.faultCause := rfl
@[simp] theorem popped_faultPc (s : State) : (s.popped).faultPc = s.faultPc := rfl
@[simp] theorem popped_faultOpcode (s : State) : (s.popped).faultOpcode = s.faultOpcode := rfl
@[simp] theorem popped_faultInfo (s : State) : (s.popped).faultInfo = s.faultInfo := rfl
@[simp] theorem popped_out (s : State) : (s.popped).out = s.out := rfl

/-! ### enterFault -/

@[simp] theorem enterFault_regs (s : State) (f : FaultReport) : (s.enterFault f).regs = s.regs := rfl
@[simp] theorem enterFault_pc (s : State) (f : FaultReport) : (s.enterFault f).pc = s.pc := rfl
@[simp] theorem enterFault_ir (s : State) (f : FaultReport) : (s.enterFault f).ir = s.ir := rfl
@[simp] theorem enterFault_fl (s : State) (f : FaultReport) : (s.enterFault f).fl = s.fl := rfl
@[simp] theorem enterFault_mem (s : State) (f : FaultReport) : (s.enterFault f).mem = s.mem := rfl
@[simp] theorem enterFault_status (s : State) (f : FaultReport) : (s.enterFault f).status = .faulted := rfl
@[simp] theorem enterFault_faultCause (s : State) (f : FaultReport) : (s.enterFault f).faultCause = f.cause := rfl
@[simp] theorem enterFault_faultPc (s : State) (f : FaultReport) : (s.enterFault f).faultPc = s.pc := rfl
@[simp] theorem enterFault_faultOpcode (s : State) (f : FaultReport) : (s.enterFault f).faultOpcode = s.ir := rfl
@[simp] theorem enterFault_faultInfo (s : State) (f : FaultReport) : (s.enterFault f).faultInfo = f.info := rfl
@[simp] theorem enterFault_out (s : State) (f : FaultReport) : (s.enterFault f).out = s.out := rfl

/-! ### placeCode -/

@[simp] theorem placeCode_regs (s : State) (bytes : List Byte) : (s.placeCode bytes).regs = s.regs := rfl
@[simp] theorem placeCode_pc (s : State) (bytes : List Byte) : (s.placeCode bytes).pc = s.pc := rfl
@[simp] theorem placeCode_ir (s : State) (bytes : List Byte) : (s.placeCode bytes).ir = s.ir := rfl
@[simp] theorem placeCode_fl (s : State) (bytes : List Byte) : (s.placeCode bytes).fl = s.fl := rfl
@[simp] theorem placeCode_mem (s : State) (bytes : List Byte) : (s.placeCode bytes).mem = s.mem.writeFrom s.pc.toNat bytes := rfl
@[simp] theorem placeCode_status (s : State) (bytes : List Byte) : (s.placeCode bytes).status = .running := rfl
@[simp] theorem placeCode_faultCause (s : State) (bytes : List Byte) : (s.placeCode bytes).faultCause = s.faultCause := rfl
@[simp] theorem placeCode_faultPc (s : State) (bytes : List Byte) : (s.placeCode bytes).faultPc = s.faultPc := rfl
@[simp] theorem placeCode_faultOpcode (s : State) (bytes : List Byte) : (s.placeCode bytes).faultOpcode = s.faultOpcode := rfl
@[simp] theorem placeCode_faultInfo (s : State) (bytes : List Byte) : (s.placeCode bytes).faultInfo = s.faultInfo := rfl
@[simp] theorem placeCode_out (s : State) (bytes : List Byte) : (s.placeCode bytes).out = s.out := rfl

/-! ### Reading a register -/

@[simp] theorem reg_setReg_same (s : State) (r : RegIndex) (v : Byte) : (s.setReg r v).reg r = v := by
  simp [reg]

theorem reg_setReg_of_ne (s : State) (r j : RegIndex) (v : Byte) (h : j ≠ r) :
    (s.setReg r v).reg j = s.reg j := by
  have : r.val ≠ j.val := fun e => h (Fin.ext e.symm)
  simp [reg, this]

theorem reg_setReg (s : State) (r j : RegIndex) (v : Byte) :
    (s.setReg r v).reg j = if j = r then v else s.reg j := by
  by_cases h : j = r
  · subst h; simp
  · simp [h, reg_setReg_of_ne]

@[simp] theorem setPc_reg (s : State) (t : Byte) (r : RegIndex) : (s.setPc t).reg r = s.reg r := rfl
@[simp] theorem setPc_sp (s : State) (t : Byte) : (s.setPc t).sp = s.sp := rfl
@[simp] theorem setIr_reg (s : State) (op : Byte) (r : RegIndex) : (s.setIr op).reg r = s.reg r := rfl
@[simp] theorem setIr_sp (s : State) (op : Byte) : (s.setIr op).sp = s.sp := rfl
@[simp] theorem setFl_reg (s : State) (f : Flag) (r : RegIndex) : (s.setFl f).reg r = s.reg r := rfl
@[simp] theorem setFl_sp (s : State) (f : Flag) : (s.setFl f).sp = s.sp := rfl
@[simp] theorem setStatus_reg (s : State) (st : Status) (r : RegIndex) : (s.setStatus st).reg r = s.reg r := rfl
@[simp] theorem setStatus_sp (s : State) (st : Status) : (s.setStatus st).sp = s.sp := rfl
@[simp] theorem store_reg (s : State) (a v : Byte) (r : RegIndex) : (s.store a v).reg r = s.reg r := rfl
@[simp] theorem store_sp (s : State) (a v : Byte) : (s.store a v).sp = s.sp := rfl
@[simp] theorem emit_reg (s : State) (v : Byte) (r : RegIndex) : (s.emit v).reg r = s.reg r := rfl
@[simp] theorem emit_sp (s : State) (v : Byte) : (s.emit v).sp = s.sp := rfl
@[simp] theorem enterFault_reg (s : State) (f : FaultReport) (r : RegIndex) : (s.enterFault f).reg r = s.reg r := rfl
@[simp] theorem enterFault_sp (s : State) (f : FaultReport) : (s.enterFault f).sp = s.sp := rfl
@[simp] theorem placeCode_reg (s : State) (bytes : List Byte) (r : RegIndex) : (s.placeCode bytes).reg r = s.reg r := rfl
@[simp] theorem placeCode_sp (s : State) (bytes : List Byte) : (s.placeCode bytes).sp = s.sp := rfl

@[simp] theorem push_sp (s : State) (v : Byte) : (s.push v).sp = s.sp - 1 :=
  reg_setReg_same s Config.spIndex s.pushAddress

theorem push_reg_of_ne (s : State) (v : Byte) (r : RegIndex) (h : r ≠ Config.spIndex) :
    (s.push v).reg r = s.reg r :=
  reg_setReg_of_ne s Config.spIndex r s.pushAddress h

@[simp] theorem popped_sp (s : State) : s.popped.sp = s.sp + 1 :=
  reg_setReg_same s Config.spIndex (s.sp + 1)

theorem popped_reg_of_ne (s : State) (r : RegIndex) (h : r ≠ Config.spIndex) : s.popped.reg r = s.reg r :=
  reg_setReg_of_ne s Config.spIndex r (s.sp + 1) h

end Sys2Proof.Machine.State
end

