-- ==== Sys2Proof/Laws/Ops.lean ====
section
/-! SUPPORT. For each shared operation, once, everything it can do. -/

namespace Sys2Proof.Machine

theorem regOperand_of_lt {b : Byte} (h : b.toNat < 8) : regOperand b = .ok ⟨b.toNat, h⟩ := by
  simp only [regOperand, h, dif_pos]

theorem regOperand_of_ge {b : Byte} (h : 7 < b.toNat) : regOperand b = .error ⟨.badRegister, b⟩ := by
  have : ¬ b.toNat < 8 := by omega
  simp only [regOperand, this, dif_neg, not_false_eq_true]

/-- A register operand names its register or raises BAD_REGISTER. -/
theorem regOperand_cases (b : Byte) :
    (∃ r : RegIndex, b.toNat = r.val ∧ regOperand b = .ok r) ∨
    (7 < b.toNat ∧ regOperand b = .error ⟨.badRegister, b⟩) := by
  by_cases h : b.toNat < 8
  · exact .inl ⟨⟨b.toNat, h⟩, rfl, regOperand_of_lt h⟩
  · have h7 : 7 < b.toNat := by omega
    exact .inr ⟨h7, regOperand_of_ge h7⟩

theorem seq_of_le {a : Byte} {len : Nat} (h : a.toNat + len ≤ 0xFF) : seq a len = .ok (a + BitVec.ofNat 8 len) := by
  have hlt : ¬ Config.lastAddress < a.toNat + len := by simp only [Config.lastAddress]; omega
  have hv : (BitVec.ofNat 8 (a.toNat + len) : Byte) = a + BitVec.ofNat 8 len := by
    apply BitVec.eq_of_toNat_eq
    simp
  simp only [seq, hlt, if_false, hv]

theorem seq_of_gt {a : Byte} {len : Nat} (h : 0xFF < a.toNat + len) : seq a len = .error ⟨.pcRange, 0x00⟩ := by
  simp only [seq, Config.lastAddress, h, if_true]

/-- The successor address never wraps: it is `a + len`, or PC_RANGE is raised. -/
theorem seq_cases (a : Byte) (len : Nat) :
    (a.toNat + len ≤ 0xFF ∧ seq a len = .ok (a + BitVec.ofNat 8 len)) ∨
    (0xFF < a.toNat + len ∧ seq a len = .error ⟨.pcRange, 0x00⟩) := by
  rcases Nat.lt_or_ge 0xFF (a.toNat + len) with h | h
  · exact .inr ⟨h, seq_of_gt h⟩
  · exact .inl ⟨h, seq_of_le h⟩

theorem pushRoom_of_ne {s : State} (h : s.sp ≠ 0x00) : pushRoom s = .ok () := by
  simp only [pushRoom, h, if_false]

theorem pushRoom_of_zero {s : State} (h : s.sp = 0x00) : pushRoom s = .error ⟨.stackOverflow, 0x00⟩ := by
  simp only [pushRoom, h, if_true]

theorem popRoom_of_ne {s : State} (h : s.sp ≠ 0xFF) : popRoom s = .ok () := by
  simp only [popRoom, h, if_false]

theorem popRoom_of_full {s : State} (h : s.sp = 0xFF) : popRoom s = .error ⟨.stackUnderflow, 0xFF⟩ := by
  simp only [popRoom, h, if_true]

@[simp] theorem pushRoom_setIr (s : State) (op : Byte) : pushRoom (s.setIr op) = pushRoom s := rfl

@[simp] theorem popRoom_setIr (s : State) (op : Byte) : popRoom (s.setIr op) = popRoom s := rfl

@[simp] theorem perform_ok (s t : State) : perform s (.ok t) = .next t := rfl

@[simp] theorem perform_error (s : State) (f : FaultReport) : perform s (.error f) = .next (s.enterFault f) := rfl

/-- A rule ends in the state it leaves or in the fault it raised, and always in a next state. -/
theorem perform_cases {s t : State} {rule : Except FaultReport State} (h : perform s rule = .next t) :
    rule = .ok t ∨ ∃ f, rule = .error f ∧ t = s.enterFault f := by
  cases rule with
  | ok u => exact .inl (by simpa using h)
  | error f => exact .inr ⟨f, rfl, by simpa using h.symm⟩

theorem perform_total (s : State) (rule : Except FaultReport State) : ∃ t, perform s rule = .next t := by
  cases rule with
  | ok u => exact ⟨u, rfl⟩
  | error f => exact ⟨s.enterFault f, rfl⟩

/-- From a bind that ends well, its two parts: peels a meaning's do block apart. -/
theorem bind_eq_ok {α β : Type} {x : Except FaultReport α} {g : α → Except FaultReport β} {b : β}
    (h : (x >>= g) = .ok b) : ∃ a, x = .ok a ∧ g a = .ok b := by
  cases x with
  | ok a => exact ⟨a, rfl, h⟩
  | error f => cases h

@[simp] theorem ok_bind {α β : Type} (a : α) (g : α → Except FaultReport β) : ((.ok a : Except FaultReport α) >>= g) = g a := rfl

@[simp] theorem error_bind {α β : Type} (f : FaultReport) (g : α → Except FaultReport β) :
    ((.error f : Except FaultReport α) >>= g) = .error f := rfl

@[simp] theorem pure_eq_ok {α : Type} (a : α) : (pure a : Except FaultReport α) = .ok a := rfl

end Sys2Proof.Machine
end

