-- ==== Sys2Proof/Laws/Step.lean ====
section
/-! SUPPORT. What a fetch and a step can do, said once. -/

namespace Sys2Proof.Machine

@[simp] theorem opcodeByte_setIr (s : State) (op : Byte) : (s.setIr op).opcodeByte = s.opcodeByte := rfl

@[simp] theorem fetchInstr_setIr (s : State) (op : Byte) : fetchInstr (s.setIr op) = fetchInstr s := rfl

/-- The fetch window starts with the byte at the pc. -/
theorem window_eq (s : State) (n : Nat) :
    s.mem.bytesFrom s.pc.toNat (n + 1) = s.opcodeByte :: s.mem.bytesFrom (s.pc.toNat + 1) n := by
  rw [Memory.bytesFrom_succ (by have := s.pc.isLt; omega)]
  simp [State.opcodeByte]

theorem read_ofNat_add (s : State) (k : Nat) :
    s.mem.read (BitVec.ofNat 8 (s.pc.toNat + k)) = s.mem.read (s.pc + BitVec.ofNat 8 k) := by
  congr 1
  apply BitVec.eq_of_toNat_eq
  simp

theorem fetchInstr_of_unknown {s : State} (h : dispatch s.opcodeByte = none) :
    fetchInstr s = .error ⟨.unknownOpcode, 0x00⟩ := by
  simp [fetchInstr, lengthOf, window_eq, decode_cons_of_none h, DecodeError.report]

/-- A fetch of a recognized opcode assembles the instruction from the bytes after it, or raises FETCH_RANGE. -/
theorem fetchInstr_of_dispatch {s : State} {o : Op} (h : dispatch s.opcodeByte = some o) :
    fetchInstr s =
      match assemble o (s.mem.bytesFrom (s.pc.toNat + 1) o.format.operandCount) with
      | none => .error ⟨.fetchRange, 0x00⟩
      | some found => .ok found.1 := by
  have hop := opcode_of_dispatch h
  have hlen : lengthOf s.opcodeByte = o.format.operandCount + 1 := hop ▸ lengthOf_opcode o
  rw [fetchInstr, hlen, window_eq, hop, decode_opcode_cons]
  cases assemble o (s.mem.bytesFrom (s.pc.toNat + 1) o.format.operandCount) <;> rfl

theorem step_of_running {s : State} (h : s.status = .running) : step s = cycle s := by simp [step, h]

/-- A next state comes from a running core only (40_fetch_decode_execute.md R138). -/
theorem running_of_step {s t : State} (h : step s = .next t) : s.status = .running := by
  unfold step at h
  split at h
  · assumption
  all_goals cases h

theorem cycle_of_fetched {s : State} {i : Instr} (h : fetchInstr s = .ok i) :
    cycle s = exec i (s.setIr s.opcodeByte) := by simp [cycle, h]

theorem cycle_of_fault {s : State} {f : FaultReport} (h : fetchInstr s = .error f) :
    cycle s = .next ((s.setIr s.opcodeByte).enterFault f) := by simp [cycle, h]

/-- All a step can do: the fault of its fetch, or the meaning of the fetched instruction, after IR is written. -/
theorem step_cases {s t : State} (h : step s = .next t) :
    s.status = .running ∧
      ((∃ f, fetchInstr s = .error f ∧ t = (s.setIr s.opcodeByte).enterFault f) ∨
       (∃ i, fetchInstr s = .ok i ∧ exec i (s.setIr s.opcodeByte) = .next t)) := by
  have hr := running_of_step h
  rw [step_of_running hr] at h
  refine ⟨hr, ?_⟩
  cases hf : fetchInstr s with
  | error f =>
    rw [cycle_of_fault hf] at h
    exact .inl ⟨f, rfl, by simpa using h.symm⟩
  | ok i =>
    rw [cycle_of_fetched hf] at h
    exact .inr ⟨i, rfl, h⟩

end Sys2Proof.Machine
end

