-- ==== Sys2Proof/Laws/Formats.lean ====
section
/-! SUPPORT. What a step of a RUNNING core is, by the format of the instruction at the pc (40_fetch_decode_execute.md
R131 to R135): one lemma per format, which proofs about a step cite instead of unfolding the fetch. -/

namespace Sys2Proof.Machine

@[simp] theorem regByte_toNat (r : RegIndex) : (regByte r).toNat = r.val := by
  simp only [regByte, BitVec.toNat_ofNat]
  exact Nat.mod_eq_of_lt (lt_trans r.isLt (by decide))

@[simp] theorem regByte_inj {a b : RegIndex} : regByte a = regByte b ↔ a = b :=
  ⟨fun h => Fin.ext (by simpa using congrArg BitVec.toNat h), fun h => h ▸ rfl⟩

@[simp] theorem regOperand_regByte (r : RegIndex) : regOperand (regByte r) = .ok r := by
  rw [regOperand_of_lt (by rw [regByte_toNat]; exact r.isLt)]
  simp

/-- A byte up to 7 names a register. -/
theorem exists_regByte {b : Byte} (h : b.toNat ≤ 7) : ∃ r, b = regByte r := by
  refine ⟨⟨b.toNat, by omega⟩, BitVec.eq_of_toNat_eq ?_⟩
  simp

theorem faultStop_eq (s : State) (f : FaultReport) :
    (s.setIr s.opcodeByte).enterFault f = s.faultStop f.cause f.info := rfl

theorem step_of_unrecognized {s : State} (hr : s.status = .running) (h : dispatch s.opcodeByte = none) :
    step s = .next (s.faultStop .unknownOpcode 0x00) := by
  rw [step_of_running hr, cycle_of_fault (fetchInstr_of_unknown h), faultStop_eq]

theorem step_formatN {s : State} {o : Op} {i : Instr} (hr : s.status = .running)
    (hd : dispatch s.opcodeByte = some o) (ha : assemble o = noOperand i) :
    step s = exec i (s.setIr s.opcodeByte) := by
  rw [step_of_running hr, cycle_of_fetched]
  simp [fetchInstr_of_dispatch hd, ha, noOperand]

theorem step_formatR {s : State} {o : Op} {mk : Byte → Instr} (hr : s.status = .running)
    (hd : dispatch s.opcodeByte = some o) (ha : assemble o = oneOperand mk) (hc : o.format.operandCount = 1) :
    (s.pc = 0xFF → step s = .next (s.faultStop .fetchRange 0x00)) ∧
    (s.pc.toNat < 0xFF → step s = exec (mk s.operand1) (s.setIr s.opcodeByte)) := by
  constructor
  · intro hpc
    have hf : fetchInstr s = .error ⟨.fetchRange, 0x00⟩ := by
      rw [fetchInstr_of_dispatch hd, hc, Memory.bytesFrom_of_gt (by simp [hpc]), ha]; rfl
    rw [step_of_running hr, cycle_of_fault hf, faultStop_eq]
  · intro hpc
    have hf : fetchInstr s = .ok (mk s.operand1) := by
      rw [fetchInstr_of_dispatch hd, hc, Memory.bytesFrom_succ (by omega), ha, read_ofNat_add]; rfl
    rw [step_of_running hr, cycle_of_fetched hf]

theorem step_formatTwo {s : State} {o : Op} {mk : Byte → Byte → Instr} (hr : s.status = .running)
    (hd : dispatch s.opcodeByte = some o) (ha : assemble o = twoOperands mk) (hc : o.format.operandCount = 2) :
    (0xFE ≤ s.pc.toNat → step s = .next (s.faultStop .fetchRange 0x00)) ∧
    (s.pc.toNat < 0xFE → step s = exec (mk s.operand1 s.operand2) (s.setIr s.opcodeByte)) := by
  constructor
  · intro hpc
    have hf : fetchInstr s = .error ⟨.fetchRange, 0x00⟩ := by
      rw [fetchInstr_of_dispatch hd, hc, ha]
      by_cases h : s.pc.toNat + 1 ≤ 0xFF
      · rw [Memory.bytesFrom_succ h, Memory.bytesFrom_of_gt (by omega)]; rfl
      · rw [Memory.bytesFrom_of_gt (by omega)]; rfl
    rw [step_of_running hr, cycle_of_fault hf, faultStop_eq]
  · intro hpc
    have hf : fetchInstr s = .ok (mk s.operand1 s.operand2) := by
      rw [fetchInstr_of_dispatch hd, hc, Memory.bytesFrom_succ (by omega), Memory.bytesFrom_succ (by omega), ha,
        read_ofNat_add, Nat.add_assoc, read_ofNat_add]
      rfl
    rw [step_of_running hr, cycle_of_fetched hf]

end Sys2Proof.Machine
end

