-- ==== Sys2Proof/Laws/Exec.lean ====
section
/-! SUPPORT. What the meanings' shared ends can do, said once: they write what their rule says, or enter a fault. -/

namespace Sys2Proof.Machine

/-- A register operand, in the words of the statements. -/
theorem regOperand_ok {b : Byte} {r : RegIndex} (h : regOperand b = .ok r) : b = regByte r := by
  rcases regOperand_cases b with ⟨q, hq, e⟩ | ⟨_, e⟩
  · rw [e] at h
    cases h
    exact BitVec.eq_of_toNat_eq (by simp [hq])
  · rw [e] at h
    cases h

theorem seq_ok {a n : Byte} {len : Nat} (h : seq a len = .ok n) :
    a.toNat + len ≤ 0xFF ∧ n = a + BitVec.ofNat 8 len := by
  rcases seq_cases a len with ⟨hle, e⟩ | ⟨_, e⟩
  · rw [e] at h
    cases h
    exact ⟨hle, rfl⟩
  · rw [e] at h
    cases h

/-- All that the rule of ADD and MUL can do. -/
theorem aluWrite_cases {f : Byte → Byte → Byte} {ra rb : Byte} {s t : State} (h : aluWrite f ra rb s = .next t) :
    (∃ a b, ra = regByte a ∧ rb = regByte b ∧ s.pc.toNat + 3 ≤ 0xFF ∧
      t = (s.setReg a (f (s.reg a) (s.reg b))).setPc (s.pc + 3)) ∨ ∃ g, t = s.enterFault g := by
  rcases perform_cases h with h | ⟨g, -, h⟩
  · obtain ⟨a, ha, h⟩ := bind_eq_ok h
    obtain ⟨b, hb, h⟩ := bind_eq_ok h
    obtain ⟨n, hn, h⟩ := bind_eq_ok h
    obtain ⟨hle, rfl⟩ := seq_ok hn
    cases h
    exact .inl ⟨a, b, regOperand_ok ha, regOperand_ok hb, hle, rfl⟩
  · exact .inr ⟨g, h⟩

/-- All that the rule of JEQ and JNE can do: only the pc is written, to the register's value or to the successor. -/
theorem jumpIf_cases {taken : Bool} {r : Byte} {s t : State} (h : jumpIf taken r s = .next t) :
    (∃ d, r = regByte d ∧
      ((taken = true ∧ t = s.setPc (s.reg d)) ∨
       (taken = false ∧ s.pc.toNat + 2 ≤ 0xFF ∧ t = s.setPc (s.pc + 2)))) ∨ ∃ g, t = s.enterFault g := by
  rcases perform_cases h with h | ⟨g, -, h⟩
  · obtain ⟨d, hd, h⟩ := bind_eq_ok h
    refine .inl ⟨d, regOperand_ok hd, ?_⟩
    cases taken with
    | true =>
      cases h
      exact .inl ⟨rfl, rfl⟩
    | false =>
      obtain ⟨n, hn, h⟩ := bind_eq_ok h
      obtain ⟨hle, rfl⟩ := seq_ok hn
      cases h
      exact .inr ⟨rfl, hle, rfl⟩
  · exact .inr ⟨g, h⟩

/-- Every meaning answers a next state: the spec's faults are next states too. -/
theorem exec_total (i : Instr) (s : State) : ∃ t, exec i s = .next t := by
  cases i <;> first | exact perform_total _ _ | exact ⟨_, rfl⟩

end Sys2Proof.Machine
end

