-- ==== Sys2Proof/Laws/PerInstr.lean ====
section
/-! SUPPORT. Family EncodedLength: the length rule gives every instruction's encoded length from its first byte
(30_encoding.md R103, R105). -/

namespace Sys2Proof.Laws.EncodedLength

/-- The first byte of the encoding says how many bytes the encoding has. -/
def Statement (i : Instr) : Prop := (encode i).length = lengthOf i.op.opcode

theorem hlt : Statement .hlt := by unfold Statement; decide
theorem ret : Statement .ret := by unfold Statement; decide
theorem push (r : Byte) : Statement (.push r) := (lengthOf_opcode .push).symm
theorem pop (r : Byte) : Statement (.pop r) := (lengthOf_opcode .pop).symm
theorem prn (r : Byte) : Statement (.prn r) := (lengthOf_opcode .prn).symm
theorem call (r : Byte) : Statement (.call r) := (lengthOf_opcode .call).symm
theorem jmp (r : Byte) : Statement (.jmp r) := (lengthOf_opcode .jmp).symm
theorem jeq (r : Byte) : Statement (.jeq r) := (lengthOf_opcode .jeq).symm
theorem jne (r : Byte) : Statement (.jne r) := (lengthOf_opcode .jne).symm
theorem ldi (r imm : Byte) : Statement (.ldi r imm) := (lengthOf_opcode .ldi).symm
theorem add (ra rb : Byte) : Statement (.add ra rb) := (lengthOf_opcode .add).symm
theorem mul (ra rb : Byte) : Statement (.mul ra rb) := (lengthOf_opcode .mul).symm
theorem cmp (ra rb : Byte) : Statement (.cmp ra rb) := (lengthOf_opcode .cmp).symm

end Sys2Proof.Laws.EncodedLength
end

