-- ==== Sys2Proof/Tests/Slice0.lean ====
section
/-! SUPPORT. Tests of the model against spec/ and the witnesses of the statements' hypotheses. The expected values of a
test_V<n> or test_H<n> are the vector's of that number in 95_test_vectors.md; the words of a decode test are written
out from 30_encoding.md R101 and R104. -/

namespace Sys2Proof.Tests

open Sys2Proof.Machine

/-! ### Helpers -/

/-- The start of a vector of 95_test_vectors.md: reset, RUNNING, the bytes at `a`, the pc at `a`. -/
def vec (a : Byte) (bytes : List Byte) : State :=
  { State.reset with pc := a, status := .running, mem := Memory.writeFrom [] a.toNat bytes }

/-- The next state, if that is the outcome. -/
def after : Result State → Option State
  | .next t => some t
  | .fault _ => none
  | .refused _ => none

/-- What a vector's "FAULTED c info i" fixes: status, cause code, FAULT_PC, FAULT_OPCODE, FAULT_INFO and the pc. -/
def faultRecord (s : State) : Option (Status × Byte × Byte × Byte × Byte × Byte) :=
  (after (step s)).map fun t => (t.status, t.faultCause.code, t.faultPc, t.faultOpcode, t.faultInfo, t.pc)

/-- A RUNNING core with this opcode byte at the pc. -/
abbrev At (s : State) (op : Byte) : Prop := s.status = .running ∧ s.mem.read s.pc = op

/-! ### Decoding: words written out bit by bit from R101 and R104 -/

theorem test_decode_hlt : decode [0b00000001] = .ok (.hlt, []) := rfl
theorem test_decode_ret : decode [0b00010001] = .ok (.ret, []) := rfl
theorem test_decode_push : decode [0b01000101, 0b00000110] = .ok (.push 6, []) := rfl
theorem test_decode_pop : decode [0b01000110, 0b00000111] = .ok (.pop 7, []) := rfl
theorem test_decode_prn : decode [0b01000111, 0b00000010] = .ok (.prn 2, []) := rfl
theorem test_decode_call : decode [0b01010000, 0b00000011] = .ok (.call 3, []) := rfl
theorem test_decode_jmp : decode [0b01010100, 0b00000100] = .ok (.jmp 4, []) := rfl
theorem test_decode_jeq : decode [0b01010101, 0b00000101] = .ok (.jeq 5, []) := rfl
theorem test_decode_jne : decode [0b01010110, 0b11111111] = .ok (.jne 255, []) := rfl
theorem test_decode_ldi : decode [0b10000010, 0b00000001, 0b10000000] = .ok (.ldi 1 128, []) := rfl
theorem test_decode_add : decode [0b10100000, 0b00000001, 0b00000010] = .ok (.add 1 2, []) := rfl
theorem test_decode_mul : decode [0b10100010, 0b00000010, 0b00000001] = .ok (.mul 2 1, []) := rfl
theorem test_decode_cmp : decode [0b10100111, 0b00000011, 0b00000100] = .ok (.cmp 3 4, []) := rfl
theorem test_decode_rejects_unknown : decode [0b10100001, 0, 1] = .error (.unknownOpcode 0xA1) := rfl
theorem test_decode_rejects_short : decode [0b10000010, 1] = .error (.missingOperand 0x82) := rfl
theorem test_decode_rejects_nothing : decode [] = .error .noBytes := rfl
theorem test_decodeTableWord_operands : decodeTableWord 24 0x0201A0 = some (.add 1 2) := by decide
theorem test_decodeTableWord_short_word : decodeTableWord 8 0xFFFF82 = some (.ldi 0 0) := by decide

/-- Section 2.1 of 95_test_vectors.md. -/
theorem test_lengths :
    [0x01, 0x11, 0x00, 0x47, 0x7F, 0x82, 0xA7, 0xC0, 0xFF].map lengthOf = [1, 1, 1, 2, 2, 3, 3, 4, 4] := by decide

/-! ### WellFormed: an ill-formed term for each check (R106) -/

theorem test_wf_refuses_push : (Instr.push 8).wellFormed = false := by decide
theorem test_wf_refuses_pop : (Instr.pop 255).wellFormed = false := by decide
theorem test_wf_refuses_prn : (Instr.prn 16).wellFormed = false := by decide
theorem test_wf_refuses_call : (Instr.call 8).wellFormed = false := by decide
theorem test_wf_refuses_jmp : (Instr.jmp 8).wellFormed = false := by decide
theorem test_wf_refuses_jeq : (Instr.jeq 8).wellFormed = false := by decide
theorem test_wf_refuses_jne : (Instr.jne 8).wellFormed = false := by decide
theorem test_wf_refuses_ldi : (Instr.ldi 8 0).wellFormed = false := by decide
theorem test_wf_refuses_add : (Instr.add 8 0).wellFormed = false ∧ (Instr.add 0 8).wellFormed = false := by decide
theorem test_wf_refuses_mul : (Instr.mul 8 0).wellFormed = false ∧ (Instr.mul 0 8).wellFormed = false := by decide
theorem test_wf_refuses_cmp : (Instr.cmp 8 0).wellFormed = false ∧ (Instr.cmp 0 8).wellFormed = false := by decide
theorem test_wf_admits_any_immediate : (Instr.ldi 7 255).wellFormed = true := by decide

/-! ### One step: the vectors of 95_test_vectors.md -/

theorem test_V3_length_four_byte :
    faultRecord (vec 0x10 [0xC0, 0, 0, 0]) = some (.faulted, 1, 0x10, 0xC0, 0x00, 0x10) := by decide

theorem test_V7_unknown_before_range :
    faultRecord (vec 0xFF [0xC5]) = some (.faulted, 1, 0xFF, 0xC5, 0x00, 0xFF) := by decide

theorem test_V13_ldi_up_to_the_top :
    (after (step (vec 0xFC [0x82, 1, 5]))).map (fun t => (t.reg 1, t.pc)) = some (0x05, 0xFF) := by decide

theorem test_V17_ldi_range_before_register :
    faultRecord (vec 0xFE [0x82, 9]) = some (.faulted, 2, 0xFE, 0x82, 0x00, 0xFE) := by decide

theorem test_V21_prn_is_unsigned :
    (after (step ((vec 0x10 [0x47, 2]).setReg 2 0xFF))).map (fun t => (outputLines t, t.pc)) = some (["255"], 0x12) := by
  decide

theorem test_V23_prn_emits_nothing_on_fault :
    (after (step ((vec 0xFE [0x47, 0]).setReg 0 1))).map (fun t => (t.out, t.faultCause.code)) = some ([], 6) := by
  decide

theorem test_V31_push_r7_stores_the_old_pointer :
    (after (step (vec 0x10 [0x45, 7]))).map (fun t => (t.sp, t.mem.read 0xF3, t.pc)) = some (0xF3, 0xF4, 0x12) := by
  decide

theorem test_V35_push_overflow_before_pc_range :
    faultRecord ((vec 0xFE [0x45, 0]).setReg 7 0x00) = some (.faulted, 4, 0xFE, 0x45, 0x00, 0xFE) := by decide

theorem test_V38_pop_r7_keeps_the_popped_byte :
    (after (step (((vec 0x10 [0x46, 7]).setReg 7 0xF3).store 0xF3 0x2A))).map (fun t => (t.sp, t.pc)) =
      some (0x2A, 0x12) := by decide

theorem test_V39_pop_underflow :
    faultRecord ((vec 0x10 [0x46, 0]).setReg 7 0xFF) = some (.faulted, 5, 0x10, 0x46, 0xFF, 0x10) := by decide

theorem test_V51_call_r7_jumps_to_the_old_pointer :
    (after (step (vec 0x0A [0x50, 7]))).map (fun t => (t.sp, t.mem.read 0xF3, t.pc)) = some (0xF3, 0x0C, 0xF4) := by
  decide

theorem test_V53_call_return_address_must_fit :
    faultRecord ((vec 0xFE [0x50, 1]).setReg 1 0x00) = some (.faulted, 6, 0xFE, 0x50, 0x00, 0xFE) := by decide

theorem test_V57_ret_underflow :
    faultRecord ((vec 0x20 [0x11]).setReg 7 0xFF) = some (.faulted, 5, 0x20, 0x11, 0xFF, 0x20) := by decide

theorem test_V58_ret_at_the_top :
    (after (step (((vec 0xFF [0x11]).setReg 7 0xF3).store 0xF3 0x40))).map (fun t => (t.sp, t.pc)) =
      some (0xF4, 0x40) := by decide

theorem test_V61_jmp_never_continues :
    (after (step ((vec 0xFE [0x54, 2]).setReg 2 0x40))).map (fun t => (t.status, t.pc)) = some (.running, 0x40) := by
  decide

theorem test_V66_jeq_not_taken_before_cmp :
    (after (step ((vec 0x10 [0x55, 3]).setReg 3 0x30))).map (fun t => t.pc) = some 0x12 := by decide

theorem test_V69_jeq_checks_its_register_untaken :
    faultRecord ((vec 0x10 [0x55, 8]).setFl .lessThan) = some (.faulted, 3, 0x10, 0x55, 0x08, 0x10) := by decide

theorem test_V71_jne_taken_on_less :
    (after (step (((vec 0x10 [0x56, 3]).setReg 3 0x30).setFl .lessThan))).map (fun t => t.pc) = some 0x30 := by decide

theorem test_V73_jne_not_taken_before_cmp :
    (after (step ((vec 0x10 [0x56, 3]).setReg 3 0x30))).map (fun t => t.pc) = some 0x12 := by decide

theorem test_V81_add_wraps_and_sets_no_flag :
    (after (step (((vec 0x00 [0xA0, 0, 1]).setReg 0 0xFF).setReg 1 0x01))).map (fun t => (t.reg 0, t.fl, t.pc)) =
      some (0x00, .unset, 0x03) := by decide

theorem test_V87_add_checks_the_first_field_first :
    faultRecord (vec 0x00 [0xA0, 9, 8]) = some (.faulted, 3, 0x00, 0xA0, 0x09, 0x00) := by decide

theorem test_V90_mul_keeps_the_low_byte :
    (after (step (((vec 0x00 [0xA2, 0, 1]).setReg 0 0xFF).setReg 1 0xFF))).map (fun t => (t.reg 0, t.reg 1)) =
      some (0x01, 0xFF) := by decide

theorem test_V95_cmp_overwrites :
    (after (step ((((vec 0x00 [0xA7, 0, 1]).setReg 0 7).setReg 1 7).setFl .lessThan))).map (fun t => t.fl) =
      some .equal := by decide

theorem test_V96_cmp_is_unsigned :
    (after (step (((vec 0x00 [0xA7, 0, 1]).setReg 0 0x80).setReg 1 0x7F))).map (fun t => (t.fl, t.pc)) =
      some (.greaterThan, 0x03) := by decide

theorem test_V101_hlt_at_the_top :
    (after (step (vec 0xFF [0x01]))).map (fun t => (t.status, t.pc, t.ir, t.faultCause)) =
      some (.halted, 0x00, 0x01, .none) := by decide

/-! ### The host's transactions -/

theorem test_H2_load_refuses_257_bytes : load (List.replicate 257 0) State.reset = none :=
  if_neg fun h => absurd h.2 (by rw [List.length_replicate]; decide)

theorem test_H4_load_overwrites_only_its_bytes :
    ((load (List.replicate 10 0x11) State.reset).bind (load [0x82, 0, 8])).map (fun t => t.mem.bytesFrom 0 11) =
      some [0x82, 0x00, 0x08, 0x11, 0x11, 0x11, 0x11, 0x11, 0x11, 0x11, 0x00] := by decide

/-- R50, R52 and R270 in the host's numeric view. -/
theorem test_observe_reset :
    let o := observe State.reset
    (o.fl, o.status, o.faultCause, o.final) = (0x00, 0, 0x00, false) := by decide

theorem test_reset_memory_is_canonical : State.reset.mem.wf = true := by decide

theorem test_write_of_zero_unlists : ((Memory.write [] 3 7).write 3 0) = [] := by decide

theorem test_step_from_reset_has_no_next_state : after (step State.reset) = none := by decide

/-- The first step after reset runs the placed word: here HLT. -/
theorem test_withFetchWord_runs_first :
    (after (step (State.reset.withFetchWord 8 0x01))).map (fun t => (t.status, t.pc)) = some (.halted, 0x01) := by decide

/-! ### Witnesses: for each statement with hypotheses, a concrete state and operands that meet them together, one per
clause, at a boundary of the clause's range -/

theorem witness_DecodedBytesAreTheEncoding : decode [0xA7, 0x07, 0xFF, 0x01] = .ok (.cmp 7 255, [0x01]) := rfl

theorem witness_StepRunsTheDecodedInstruction :
    let s := vec 0xFD [0x82, 7, 0xFF]
    s.status = .running ∧ decode (s.mem.bytesFrom s.pc.toNat longestInstr) = .ok (.ldi 7 255, []) := ⟨rfl, rfl⟩

theorem witness_StepRunsTheInstructionInMemory :
    let s := vec 0xFD [0x82, 7, 0xFF]
    s.status = .running ∧
      ∀ (k : Nat) (hk : k < (encode (.ldi 7 255)).length),
        s.pc.toNat + k ≤ 0xFF ∧ s.mem.read (BitVec.ofNat 8 (s.pc.toNat + k)) = (encode (.ldi 7 255))[k] := by decide

theorem witness_CoreStepsExactlyWhileRunning : (vec 0xFF [0x11]).status = .running := rfl

theorem witness_UnrecognizedOpcodeStopsTheCore :
    let s := vec 0xFF [0x00]
    s.status = .running ∧ s.mem.read s.pc ∉ recognizedOpcodes := by decide

theorem witness_StepReportsTheFirstFaultThatApplies :
    (vec 0xFE [0x45, 0]).status = .running ∧
      firstFault ((vec 0xFE [0x45, 0]).setReg 7 0x00) = some ⟨.stackOverflow, 0x00⟩ ∧
      firstFault (vec 0xFF [0x45]) = some ⟨.fetchRange, 0x00⟩ ∧
      firstFault (vec 0xFD [0x50, 0]) = none := by decide

theorem witness_FaultsArePrecise : ∃ t, step (vec 0xFE [0x47, 0]) = .next t ∧ t.status = .faulted := ⟨_, rfl, rfl⟩

/-- A clause of `EveryEndingLeavesItsPc` at a time: HLT, a fault, the last Continue that fits, RET, and the jumps. -/
theorem witness_EveryEndingLeavesItsPc :
    (∃ t, step (vec 0xFF [0x01]) = .next t ∧ t.status = .halted) ∧
    (∃ t, step (vec 0xFD [0x82, 7, 1]) = .next t ∧ t.status = .faulted) ∧
    (∃ t, step (vec 0xFC [0x82, 7, 1]) = .next t ∧ t.status = .running) ∧
    (∃ t, step (vec 0xFF [0x11]) = .next t ∧ t.status = .running) ∧
    (∃ t, step (vec 0xFD [0x50, 7]) = .next t ∧ t.status = .running ∧ (vec 0xFD [0x50, 7]).operand1 = regByte 7) ∧
    (∃ t, step ((vec 0xFE [0x55, 7]).setFl .equal) = .next t ∧ t.status = .running) ∧
    (∃ t, step (vec 0xFD [0x55, 7]) = .next t ∧ t.status = .running) ∧
    (∃ t, step ((vec 0xFE [0x56, 7]).setFl .lessThan) = .next t ∧ t.status = .running) ∧
    (∃ t, step (vec 0xFD [0x56, 7]) = .next t ∧ t.status = .running) :=
  ⟨⟨_, rfl, rfl⟩, ⟨_, rfl, rfl⟩, ⟨_, rfl, rfl⟩, ⟨_, rfl, rfl⟩, ⟨_, rfl, rfl, rfl⟩, ⟨_, rfl, rfl⟩, ⟨_, rfl, rfl⟩,
    ⟨_, rfl, rfl⟩, ⟨_, rfl, rfl⟩⟩

theorem witness_OnlyHltHalts : ∃ t, step (vec 0xFF [0x01]) = .next t ∧ t.status = .halted := ⟨_, rfl, rfl⟩

/-- An instruction that reads no flag, CMP that does not fault, and CMP that does. -/
theorem witness_OnlyCmpWritesAndOnlyJumpsReadFlags :
    (∃ t, step (vec 0xFC [0xA0, 0, 7]) = .next t ∧ (vec 0xFC [0xA0, 0, 7]).opcodeByte ≠ 0xA7 ∧
      (vec 0xFC [0xA0, 0, 7]).opcodeByte ∉ [0x55, 0x56]) ∧
    (∃ t, step (vec 0xFC [0xA7, 0, 7]) = .next t ∧ t.status ≠ .faulted) ∧
    (∃ t, step (vec 0xFD [0xA7, 0, 7]) = .next t ∧ t.status = .faulted) :=
  ⟨⟨_, rfl, by decide, by decide⟩, ⟨_, rfl, by decide⟩, ⟨_, rfl, rfl⟩⟩

theorem witness_OnlyPrnEmits : ∃ t, step (vec 0xFD [0x47, 7]) = .next t ∧ t.out = [0xF4] := ⟨_, rfl, rfl⟩

theorem witness_OnlyPushAndCallStore :
    ∃ t, step ((vec 0x10 [0x45, 7]).setReg 7 0x01) = .next t ∧
      t.mem.read 0x00 ≠ ((vec 0x10 [0x45, 7]).setReg 7 0x01).mem.read 0x00 := ⟨_, rfl, by decide⟩

theorem witness_OnlyListedRegistersAreWritten :
    (∃ t, step (vec 0xFC [0x82, 7, 1]) = .next t ∧ t.reg 7 ≠ (vec 0xFC [0x82, 7, 1]).reg 7) ∧
    (∃ t, step (vec 0xFD [0x45, 0]) = .next t ∧ t.reg 7 ≠ (vec 0xFD [0x45, 0]).reg 7) ∧
    (∃ t, step (vec 0xF3 [0x46, 0, 0]) = .next t ∧ t.reg 7 ≠ (vec 0xF3 [0x46, 0, 0]).reg 7) :=
  ⟨⟨_, rfl, by decide⟩, ⟨_, rfl, by decide⟩, ⟨_, rfl, by decide⟩⟩

/-- PUSH of the HLT byte, and CALL, each to the very address that is fetched next. -/
theorem witness_NextFetchSeesThePushedByte :
    (let s := ((vec 0x06 [0x45, 0]).setReg 7 0x09).setReg 0 0x01
     s.mem.wf = true ∧ s.operand1 = regByte 0 ∧
      ∃ t u, step s = .next t ∧ t.pc = s.sp - 1 ∧ step t = .next u ∧ s.opcodeByte = 0x45) ∧
    (let s := (vec 0x06 [0x50, 0]).setReg 0 0xF3
     s.mem.wf = true ∧ s.operand1 = regByte 0 ∧
      ∃ t u, step s = .next t ∧ t.pc = s.sp - 1 ∧ step t = .next u ∧ s.opcodeByte = 0x50) :=
  ⟨⟨rfl, rfl, _, _, rfl, rfl, rfl, rfl⟩, ⟨rfl, rfl, _, _, rfl, rfl, rfl, rfl⟩⟩

/-- The hypotheses of `OperandFaultsR` and of the sequential clauses of a 2-byte instruction, at their boundaries:
0xFF, a bad register at 0xFE, 0xFE, 0xFD. -/
abbrev MeetsR (op : Byte) : Prop :=
  (At (vec 0xFF [op]) op ∧ (vec 0xFF [op]).pc = 0xFF) ∧
  (At (vec 0xFE [op, 8]) op ∧ (vec 0xFE [op, 8]).pc ≠ 0xFF ∧ 7 < (vec 0xFE [op, 8]).operand1.toNat) ∧
  (At (vec 0xFE [op, 7]) op ∧ (vec 0xFE [op, 7]).operand1 = regByte 7 ∧ (vec 0xFE [op, 7]).pc = 0xFE) ∧
  (At (vec 0xFD [op, 7]) op ∧ (vec 0xFD [op, 7]).operand1 = regByte 7 ∧ (vec 0xFD [op, 7]).pc.toNat < 0xFE)

/-- The same of a 3-byte instruction: 0xFE, a bad first register at 0xFD, 0xFD, 0xFC. -/
abbrev MeetsRI (op : Byte) : Prop :=
  (At (vec 0xFE [op, 8]) op ∧ 0xFE ≤ (vec 0xFE [op, 8]).pc.toNat) ∧
  (At (vec 0xFD [op, 8, 8]) op ∧ (vec 0xFD [op, 8, 8]).pc.toNat < 0xFE ∧ 7 < (vec 0xFD [op, 8, 8]).operand1.toNat) ∧
  (At (vec 0xFD [op, 7, 0]) op ∧ (vec 0xFD [op, 7, 0]).operand1 = regByte 7 ∧ (vec 0xFD [op, 7, 0]).pc = 0xFD) ∧
  (At (vec 0xFC [op, 7, 0]) op ∧ (vec 0xFC [op, 7, 0]).operand1 = regByte 7 ∧ (vec 0xFC [op, 7, 0]).pc.toNat < 0xFD)

/-- The same of ADD, MUL and CMP: also a bad second register after a good first one, and both operands good. -/
abbrev MeetsRR (op : Byte) : Prop :=
  MeetsRI op ∧
  (At (vec 0xFD [op, 7, 8]) op ∧ (vec 0xFD [op, 7, 8]).pc.toNat < 0xFE ∧
    (vec 0xFD [op, 7, 8]).operand1.toNat ≤ 7 ∧ 7 < (vec 0xFD [op, 7, 8]).operand2.toNat) ∧
  ((vec 0xFD [op, 7, 0]).operand2 = regByte 0 ∧ (vec 0xFC [op, 7, 0]).operand2 = regByte 0)

theorem witness_LdiLoadsItsImmediate : MeetsRI 0x82 := by decide

theorem witness_PrnEmitsItsRegister : MeetsR 0x47 := by decide

/-- The pointer is 0xF4 in `MeetsR`; here it is 0x00 at 0xFE, where PC_RANGE would apply too. -/
theorem witness_PushStoresBelowTheStackPointer :
    MeetsR 0x45 ∧ (vec 0xFD [0x45, 7]).sp ≠ 0x00 ∧
    (let s := (vec 0xFE [0x45, 7]).setReg 7 0x00
     At s 0x45 ∧ s.operand1 = regByte 7 ∧ s.pc ≠ 0xFF ∧ s.sp = 0x00) := by decide

theorem witness_PopLoadsTheTopOfStack :
    MeetsR 0x46 ∧ (vec 0xFD [0x46, 7]).sp ≠ 0xFF ∧
    (let s := (vec 0xFE [0x46, 7]).setReg 7 0xFF
     At s 0x46 ∧ s.operand1 = regByte 7 ∧ s.pc ≠ 0xFF ∧ s.sp = 0xFF) := by decide

theorem witness_CallPushesItsReturnAddress :
    MeetsR 0x50 ∧ (vec 0xFD [0x50, 7]).sp ≠ 0x00 ∧
    (let s := (vec 0xFE [0x50, 7]).setReg 7 0x00
     At s 0x50 ∧ s.operand1 = regByte 7 ∧ s.pc ≠ 0xFF ∧ s.sp = 0x00) := by decide

theorem witness_RetJumpsToThePoppedByte :
    (At ((vec 0xFF [0x11]).setReg 7 0xFF) 0x11 ∧ ((vec 0xFF [0x11]).setReg 7 0xFF).sp = 0xFF) ∧
    (At ((vec 0xFF [0x11]).setReg 7 0xFE) 0x11 ∧ ((vec 0xFF [0x11]).setReg 7 0xFE).sp ≠ 0xFF) := by decide

theorem witness_JmpGoesToItsRegister : MeetsR 0x54 ∧ (vec 0xFE [0x54, 7]).pc ≠ 0xFF := by decide

theorem witness_JeqJumpsWhenEqual :
    MeetsR 0x55 ∧ (vec 0xFE [0x55, 7]).fl ≠ .equal ∧ (vec 0xFD [0x55, 7]).fl ≠ .equal ∧
    (let s := (vec 0xFE [0x55, 7]).setFl .equal
     At s 0x55 ∧ s.operand1 = regByte 7 ∧ s.pc ≠ 0xFF ∧ s.fl = .equal) := by decide

theorem witness_JneJumpsWhenLessOrGreater :
    MeetsR 0x56 ∧ (vec 0xFE [0x56, 7]).fl = .unset ∧ (vec 0xFD [0x56, 7]).fl = .unset ∧
    (let s := (vec 0xFE [0x56, 7]).setFl .greaterThan
     At s 0x56 ∧ s.operand1 = regByte 7 ∧ s.pc ≠ 0xFF ∧ (s.fl = .lessThan ∨ s.fl = .greaterThan)) := by decide

theorem witness_AddWritesTheSumModulo256 : MeetsRR 0xA0 := by decide

theorem witness_MulWritesTheProductModulo256 : MeetsRR 0xA2 := by decide

/-- In `MeetsRR` the first value is the greater; here the smaller and the equal one. -/
theorem witness_CmpRecordsTheUnsignedOrder :
    MeetsRR 0xA7 ∧ ((vec 0xFC [0xA7, 7, 0]).reg 0).toNat < ((vec 0xFC [0xA7, 7, 0]).reg 7).toNat ∧
    (let s := vec 0xFC [0xA7, 0, 7]
     At s 0xA7 ∧ s.operand1 = regByte 0 ∧ s.operand2 = regByte 7 ∧ (s.reg 0).toNat < (s.reg 7).toNat) ∧
    (let s := vec 0xFC [0xA7, 0, 1]
     At s 0xA7 ∧ s.operand1 = regByte 0 ∧ s.operand2 = regByte 1 ∧ (s.reg 0).toNat = (s.reg 1).toNat) := by decide

theorem witness_HltStopsTheCore : At (vec 0xFF [0x01]) 0x01 := by decide

theorem witness_LdiAddAndMulComplete : (vec 0xFC []).pc.toNat + 3 ≤ 0xFF := by decide

theorem witness_CmpCompletes : (vec 0xFC []).pc.toNat + 3 ≤ 0xFF := by decide

theorem witness_PrnCompletes : (vec 0xFD []).pc.toNat + 2 ≤ 0xFF := by decide

theorem witness_PushAndCallComplete :
    ((vec 0xFD []).setReg 7 0x01).sp ≠ 0x00 ∧ ((vec 0xFD []).setReg 7 0x01).pc.toNat + 2 ≤ 0xFF := by decide

theorem witness_PopAndRetComplete :
    ((vec 0xFD []).setReg 7 0xFE).sp ≠ 0xFF ∧ ((vec 0xFD []).setReg 7 0xFE).pc.toNat + 2 ≤ 0xFF := by decide

theorem witness_ConditionalJumpsFollowTheFlagTable :
    ((vec 0xFD []).setFl .equal).fl = .equal ∧ ((vec 0xFD []).setFl .lessThan).fl = .lessThan ∧
    ((vec 0xFD []).setFl .greaterThan).fl = .greaterThan ∧ (vec 0xFD []).fl = .unset ∧
    (vec 0xFD []).pc.toNat + 2 ≤ 0xFF := by decide

/-- Each of the three instructions, once completing and once with a byte above 7. -/
theorem witness_LdiAddAndMulFrame :
    (∃ t, exec (.ldi (regByte 7) 1) (vec 0xFC []) = .next t) ∧ (∃ t, exec (.add (regByte 7) 0) (vec 0xFC []) = .next t) ∧
    (∃ t, exec (.mul (regByte 7) 0) (vec 0xFC []) = .next t) ∧ (∃ t, exec (.ldi 8 1) (vec 0xFC []) = .next t) :=
  ⟨⟨_, rfl⟩, ⟨_, rfl⟩, ⟨_, rfl⟩, ⟨_, rfl⟩⟩

theorem witness_CmpPrnAndJumpsFrame :
    Instr.jne 7 ∈ [Instr.cmp 7 0, .prn 7, .jmp 7, .jeq 7, .jne 7] ∧ (∃ t, exec (.jne 7) (vec 0xFD []) = .next t) ∧
    (∃ t, exec (.cmp 7 0) (vec 0xFC []) = .next t) ∧ (∃ t, exec (.prn 7) (vec 0xFD []) = .next t) :=
  ⟨by decide, ⟨_, rfl⟩, ⟨_, rfl⟩, ⟨_, rfl⟩⟩

theorem witness_PushAndCallFrame :
    (∃ t, exec (.push 0) (vec 0xFD []) = .next t) ∧ (∃ t, exec (.call 0) (vec 0xFD []) = .next t) ∧
    (0x00 : Byte) ≠ (vec 0xFD []).pushAddress := ⟨⟨_, rfl⟩, ⟨_, rfl⟩, by decide⟩

theorem witness_PopAndRetFrame :
    (∃ t, exec (.pop (regByte 7)) (vec 0xFD []) = .next t) ∧ (∃ t, exec (.pop 8) (vec 0xFD []) = .next t) ∧
    (∃ t, exec .ret (vec 0xFF []) = .next t) := ⟨⟨_, rfl⟩, ⟨_, rfl⟩, ⟨_, rfl⟩⟩

theorem witness_HltFrame : ∃ t, exec .hlt (vec 0xFF []) = .next t := ⟨_, rfl⟩

/-- Both clauses: into another register, and into register 7. -/
theorem witness_PushThenPopIsARoundTrip :
    (vec 0x10 []).mem.wf = true ∧
    (∃ t u, exec (.push (regByte 7)) (vec 0x10 []) = .next t ∧ t.status ≠ .faulted ∧
      exec (.pop (regByte 2)) t = .next u ∧ u.status ≠ .faulted) ∧
    (∃ t u, exec (.push (regByte 1)) (vec 0x10 []) = .next t ∧ t.status ≠ .faulted ∧
      exec (.pop (regByte 7)) t = .next u ∧ u.status ≠ .faulted) :=
  ⟨rfl, ⟨_, _, rfl, by decide, rfl, by decide⟩, ⟨_, _, rfl, by decide, rfl, by decide⟩⟩

/-- With the state the CALL leaves as the state the RET finds. -/
theorem witness_RetReturnsPastTheCall :
    (vec 0xFD []).mem.wf = true ∧
    ∃ t, exec (.call (regByte 1)) (vec 0xFD []) = .next t ∧ t.status ≠ .faulted ∧
      ∃ u : State, u.sp = t.sp ∧ u.mem.read u.sp = t.mem.read t.sp := ⟨rfl, _, rfl, by decide, _, rfl, rfl⟩

theorem witness_CanonicalMemoriesWithEqualReadsAreEqual :
    let m := (Memory.write [] 0xFF 1).write 0x00 2
    let n := (Memory.write [] 0x00 2).write 0xFF 1
    m.wf = true ∧ n.wf = true ∧ ∀ a : Byte, m.read a = n.read a := by decide

/-- The boundary lengths of a `load` that is accepted: 0 and 256 (257 is refused, test_H2). -/
theorem witness_load_boundary_lengths :
    (load [] State.reset).isSome = true ∧
    (load (List.replicate 256 0x01) State.reset).isSome = true :=
  have accepted : ∀ p : List Byte, p.length ≤ 256 → (load p State.reset).isSome = true := fun p h => by
    simp [load, h, show State.reset.status = .idle from rfl]
  ⟨accepted _ (by decide), accepted _ (by rw [List.length_replicate])⟩

theorem witness_LoadCopiesVerbatimAndIsIdempotent :
    State.reset.mem.wf = true ∧ ∃ t, load [0x82, 0x00, 0x08] State.reset = some t ∧ 0 < 3 ∧ 3 ≤ (0x03 : Byte).toNat :=
  ⟨rfl, _, rfl, by decide, by decide⟩

/-- Both clauses of `start()`: the reset state is IDLE, a started core is not. -/
theorem witness_ResetAlwaysAndStartFromIdleOnly :
    State.reset.status = .idle ∧ (State.reset.setStatus .running).status ≠ .idle := by decide

theorem witness_StoppedCoreWaitsForReset :
    (State.reset.setStatus .halted).status = .halted ∧ (State.reset.setStatus .faulted).status = .faulted := by decide

theorem witness_reset_inv : State.reset.Inv where
  memWf := by decide
  recordClear := by decide
  recordSet := by decide
  haltedByHlt := by decide
  idleIsReset := by decide

/-- A RUNNING state that no boot reaches also meets the invariant, and steps. -/
theorem witness_StepKeepsTheInvariant :
    (vec 0x10 [0x45, 7]).Inv ∧ ∃ t, step (vec 0x10 [0x45, 7]) = .next t :=
  ⟨⟨by decide, by decide, by decide, by decide, by decide⟩, _, rfl⟩

theorem witness_HostTransactionsKeepTheInvariant :
    State.reset.Inv ∧ (∃ t, load [0x01] State.reset = some t) ∧ (∃ t, start State.reset = some t) :=
  ⟨witness_reset_inv, ⟨_, rfl⟩, ⟨_, rfl⟩⟩

theorem witness_ReachableStatesMeetTheInvariant : ∃ s, Reachable s ∧ s.status = .running ∧ s.mem.read 0x00 = 0x01 :=
  ⟨_, .start (.load [0x01] .reset rfl) rfl, rfl, rfl⟩

end Sys2Proof.Tests
end

section
/-! SUPPORT. The fetched instruction is the one its opcode byte selects (30_encoding.md R108). -/

namespace Sys2Proof

theorem opcode_injective : Function.Injective Op.opcode := fun a b h =>
  Option.some.inj (by rw [← dispatch_opcode a, h, dispatch_opcode b])

theorem oneOperand_eq_some {mk : Byte → Instr} {bytes rest : List Byte} {i : Instr}
    (h : oneOperand mk bytes = some (i, rest)) : ∃ b, bytes = b :: rest ∧ i = mk b := by
  cases bytes with
  | nil => cases h
  | cons b bs =>
    cases h
    exact ⟨b, rfl, rfl⟩

theorem twoOperands_eq_some {mk : Byte → Byte → Instr} {bytes rest : List Byte} {i : Instr}
    (h : twoOperands mk bytes = some (i, rest)) : ∃ a b, bytes = a :: b :: rest ∧ i = mk a b := by
  match bytes, h with
  | a :: b :: bs, h =>
    cases h
    exact ⟨a, b, rfl, rfl⟩

/-- The operand bytes do not change the operation. -/
theorem op_of_assemble {o : Op} {bytes rest : List Byte} {i : Instr} (h : assemble o bytes = some (i, rest)) :
    i.op = o := by
  cases o with
  | hlt | ret =>
    cases h
    rfl
  | push | pop | prn | call | jmp | jeq | jne =>
    obtain ⟨b, -, rfl⟩ := oneOperand_eq_some h
    rfl
  | ldi | add | mul | cmp =>
    obtain ⟨a, b, -, rfl⟩ := twoOperands_eq_some h
    rfl

end Sys2Proof

namespace Sys2Proof.Machine

theorem opcodeByte_of_fetched {s : State} {i : Instr} (h : fetchInstr s = .ok i) : s.opcodeByte = i.op.opcode := by
  cases hd : dispatch s.opcodeByte with
  | none =>
    rw [fetchInstr_of_unknown hd] at h
    cases h
  | some o =>
    rw [fetchInstr_of_dispatch hd] at h
    split at h
    · cases h
    next found ha =>
      cases h
      rw [opcode_of_dispatch hd, op_of_assemble ha]

theorem opcodeByte_eq_iff_of_fetched {s : State} {i : Instr} (h : fetchInstr s = .ok i) (o : Op) :
    s.opcodeByte = o.opcode ↔ i.op = o := by
  rw [opcodeByte_of_fetched h, opcode_injective.eq_iff]

end Sys2Proof.Machine
end

section
/-! SUPPORT. Who reads and who writes FL (10_state.md R49). A meaning that does not read FL commutes with overwriting it
before; this also says that the meaning keeps FL. -/

namespace Sys2Proof.Machine

/-- `m` runs the same from any FL, and carries that FL along. -/
def FlagBlind (m : State → Result State) : Prop :=
  ∀ (s t : State) (f : Flag), m s = .next t → m (s.setFl f) = .next (t.setFl f)

/-- Overwriting FL with the value it has is no change, so a flag-blind meaning cannot have changed it. -/
theorem FlagBlind.keeps_fl {m : State → Result State} (hm : FlagBlind m) {s t : State} (h : m s = .next t) :
    t.fl = s.fl := by
  have hsame : Host.Outcome.next t = .next (t.setFl s.fl) := h.symm.trans (hm s t s.fl h)
  rw [Host.Outcome.next.inj hsame, State.setFl_fl]

/-! ### Rules: the steps of a do block that do not see FL -/

/-- Two rules, of a state and of the same state with FL overwritten, are in step: the same fault or the same state but
for FL. -/
def RuleCarries (f : Flag) (rule rule' : Except FaultReport State) : Prop :=
  rule' = rule.map (State.setFl · f)

theorem ruleCarries_ok (f : Flag) (t : State) : RuleCarries f (.ok t) (.ok (t.setFl f)) := rfl

theorem RuleCarries.bind {α : Type} {f : Flag} {x : Except FaultReport α} {g g' : α → Except FaultReport State}
    (h : ∀ a, RuleCarries f (g a) (g' a)) : RuleCarries f (x >>= g) (x >>= g') := by
  cases x with
  | ok a => exact h a
  | error e => rfl

theorem RuleCarries.perform_setFl {s : State} {f : Flag} {rule rule' : Except FaultReport State}
    (h : RuleCarries f rule rule') {t : State} (ht : perform s rule = .next t) :
    perform (s.setFl f) rule' = .next (t.setFl f) := by
  rw [h]
  obtain rfl | ⟨g, rfl, rfl⟩ := perform_cases ht <;> rfl

/-! ### The meanings -/

theorem execHlt_flagBlind : FlagBlind execHlt := by
  intro s t f h
  cases h
  rfl

theorem execRet_flagBlind : FlagBlind execRet := fun _ _ f =>
  RuleCarries.perform_setFl (.bind fun _ => ruleCarries_ok f _)

theorem execPush_flagBlind (r : Byte) : FlagBlind (execPush r) := fun _ _ f =>
  RuleCarries.perform_setFl (.bind fun _ => .bind fun _ => .bind fun _ => ruleCarries_ok f _)

theorem execPop_flagBlind (r : Byte) : FlagBlind (execPop r) := fun _ _ f =>
  RuleCarries.perform_setFl (.bind fun _ => .bind fun _ => .bind fun _ => ruleCarries_ok f _)

theorem execPrn_flagBlind (r : Byte) : FlagBlind (execPrn r) := fun _ _ f =>
  RuleCarries.perform_setFl (.bind fun _ => .bind fun _ => ruleCarries_ok f _)

theorem execCall_flagBlind (r : Byte) : FlagBlind (execCall r) := fun _ _ f =>
  RuleCarries.perform_setFl (.bind fun _ => .bind fun _ => .bind fun _ => ruleCarries_ok f _)

theorem execJmp_flagBlind (r : Byte) : FlagBlind (execJmp r) := fun _ _ f =>
  RuleCarries.perform_setFl (.bind fun _ => ruleCarries_ok f _)

theorem execLdi_flagBlind (r imm : Byte) : FlagBlind (execLdi r imm) := fun _ _ f =>
  RuleCarries.perform_setFl (.bind fun _ => .bind fun _ => ruleCarries_ok f _)

theorem aluWrite_flagBlind (g : Byte → Byte → Byte) (ra rb : Byte) : FlagBlind (aluWrite g ra rb) := fun _ _ f =>
  RuleCarries.perform_setFl (.bind fun _ => .bind fun _ => .bind fun _ => ruleCarries_ok f _)

/-- Once JEQ or JNE has read FL, the rest of it is flag-blind. -/
theorem jumpIf_flagBlind (taken : Bool) (r : Byte) : FlagBlind (jumpIf taken r) := fun _ _ f =>
  RuleCarries.perform_setFl (.bind fun _ =>
    match taken with
    | true => ruleCarries_ok f _
    | false => .bind fun _ => ruleCarries_ok f _)

/-- CMP overwrites FL whatever it held, unless it faults: then FL stays (44_alu.md R203, 60_exceptions.md R241). -/
theorem execCmp_setFl {ra rb : Byte} {s t : State} (f : Flag) (hr : s.status = .running)
    (h : execCmp ra rb s = .next t) :
    execCmp ra rb (s.setFl f) = .next (if t.status ≠ .faulted then t else t.setFl f) := by
  obtain hrule | ⟨g, hrule, rfl⟩ := perform_cases h
  · have hst : t.status = .running := by
      obtain ⟨a, -, hb⟩ := bind_eq_ok hrule
      obtain ⟨b, -, hn⟩ := bind_eq_ok hb
      obtain ⟨n, -, ht⟩ := bind_eq_ok hn
      cases ht
      exact hr
    rw [if_pos (by simp [hst])]
    exact congrArg (perform (s.setFl f)) hrule
  · rw [if_neg (by simp)]
    exact congrArg (perform (s.setFl f)) hrule

theorem exec_flagBlind {i : Instr} (hjeq : i.op ≠ .jeq) (hjne : i.op ≠ .jne) (hcmp : i.op ≠ .cmp) :
    FlagBlind (exec i) := by
  cases i with
  | hlt => exact execHlt_flagBlind
  | ret => exact execRet_flagBlind
  | push r => exact execPush_flagBlind r
  | pop r => exact execPop_flagBlind r
  | prn r => exact execPrn_flagBlind r
  | call r => exact execCall_flagBlind r
  | jmp r => exact execJmp_flagBlind r
  | jeq r => exact absurd rfl hjeq
  | jne r => exact absurd rfl hjne
  | ldi r imm => exact execLdi_flagBlind r imm
  | add ra rb => exact aluWrite_flagBlind aluAdd ra rb
  | mul ra rb => exact aluWrite_flagBlind aluMul ra rb
  | cmp ra rb => exact absurd rfl hcmp

theorem exec_keeps_fl {i : Instr} {s t : State} (hcmp : i.op ≠ .cmp) (h : exec i s = .next t) : t.fl = s.fl := by
  cases i with
  | jeq r => exact (jumpIf_flagBlind (jeqTaken s.fl) r).keeps_fl h
  | jne r => exact (jumpIf_flagBlind (jneTaken s.fl) r).keeps_fl h
  | _ => exact (exec_flagBlind (by simp [Instr.op]) (by simp [Instr.op]) hcmp).keeps_fl h

/-! ### The step -/

theorem step_keeps_fl {s t : State} (h : step s = .next t) (hop : s.opcodeByte ≠ Op.opcode .cmp) : t.fl = s.fl := by
  obtain ⟨-, ⟨g, -, rfl⟩ | ⟨i, hf, he⟩⟩ := step_cases h
  · rfl
  · exact exec_keeps_fl (s := s.setIr s.opcodeByte) (mt (opcodeByte_eq_iff_of_fetched hf .cmp).mpr hop) he

theorem step_setFl {s t : State} (f : Flag) (h : step s = .next t) (hjeq : s.opcodeByte ≠ Op.opcode .jeq)
    (hjne : s.opcodeByte ≠ Op.opcode .jne) :
    step (s.setFl f) =
      .next (if s.opcodeByte = Op.opcode .cmp ∧ t.status ≠ .faulted then t else t.setFl f) := by
  obtain ⟨hr, ⟨g, hf, rfl⟩ | ⟨i, hf, he⟩⟩ := step_cases h
  · rw [step_of_running (s := s.setFl f) hr, cycle_of_fault (s := s.setFl f) hf, if_neg (by simp)]
    rfl
  · rw [step_of_running (s := s.setFl f) hr, cycle_of_fetched (s := s.setFl f) hf]
    have hop := opcodeByte_eq_iff_of_fetched hf
    by_cases hcmp : i.op = .cmp
    · obtain ⟨ra, rb, rfl⟩ : ∃ ra rb, i = .cmp ra rb := by
        cases i <;> cases hcmp
        exact ⟨_, _, rfl⟩
      simp only [(hop .cmp).mpr rfl, true_and]
      exact execCmp_setFl (s := s.setIr s.opcodeByte) f hr he
    · rw [if_neg fun hc => hcmp ((hop .cmp).mp hc.1)]
      exact exec_flagBlind (mt (hop .jeq).mpr hjeq) (mt (hop .jne).mpr hjne) hcmp _ _ f he

/-- Settles O14: every meaning but CMP's keeps FL, and every meaning but those of JEQ and JNE runs the same from any
FL. -/
theorem onlyCmpWritesAndOnlyJumpsReadFlags : Obligations.OnlyCmpWritesAndOnlyJumpsReadFlags := by
  intro s t h
  refine ⟨step_keeps_fl h, fun f hop => ?_⟩
  obtain ⟨hjeq, hjne⟩ : s.opcodeByte ≠ 0x55 ∧ s.opcodeByte ≠ 0x56 := by simpa using hop
  exact step_setFl f h hjeq hjne

end Sys2Proof.Machine
end

section
/-! SUPPORT. The length rule as arithmetic on the opcode byte, and the operand count of every instruction
(30_encoding.md R103, R105). -/

namespace Sys2Proof

/-- The mask of the length rule takes nothing away: a byte shifted right by 6 has only its two top bits left. -/
theorem lengthOf_eq (op : Byte) : lengthOf op = op.toNat / 64 + 1 := by
  have htop : op.toNat / 64 < 4 := Nat.div_lt_of_lt_mul op.isLt
  calc lengthOf op
    _ = (op.toNat / 64 &&& 2 ^ 2 - 1) + 1 := by simp [lengthOf, Nat.shiftRight_eq_div_pow]
    _ = op.toNat / 64 + 1 := by rw [Nat.and_two_pow_sub_one_eq_mod, Nat.mod_eq_of_lt htop]

theorem length_operands (i : Instr) : i.operands.length = i.op.format.operandCount := by cases i <;> rfl

theorem length_encode (i : Instr) : (encode i).length = i.operands.length + 1 := rfl

/-- The first byte of the encoding says how many bytes the encoding has. -/
theorem lengthOf_opcode_eq_length_encode (i : Instr) : lengthOf i.op.opcode = (encode i).length := by
  rw [lengthOf_opcode, length_encode, length_operands]

/-- Bits 7:6 of the opcode, read off the length of the encoding. -/
theorem opcode_div_eq_length_operands (i : Instr) : i.op.opcode.toNat / 64 = i.operands.length := by
  have h := lengthOf_opcode_eq_length_encode i
  rw [lengthOf_eq, length_encode] at h
  exact Nat.succ.inj h

/-- Settles O4: the length rule is division by 64 on every byte, and it agrees with the format of every opcode. -/
theorem topBitsOfOpcodeCountOperands : Obligations.TopBitsOfOpcodeCountOperands :=
  ⟨lengthOf_eq,
    fun i => ⟨opcode_div_eq_length_operands i, (lengthOf_opcode_eq_length_encode i).symm⟩,
    fun i => by cases i <;> rfl⟩

end Sys2Proof
end

section
/-! SUPPORT. A byte that is none of the 13 opcodes (40_fetch_decode_execute.md R132). -/

namespace Sys2Proof.Machine

/-- The spec's list of the 13 opcodes is the decoder's table, row by row (30_encoding.md R104, R111). -/
theorem recognizedOpcodes_eq_map_opcode : recognizedOpcodes = Op.all.map Op.opcode := rfl

/-- The decoder rejects exactly the bytes outside the spec's list (30_encoding.md R108). -/
theorem dispatch_eq_none_iff_not_recognized {op : Byte} : dispatch op = none ↔ op ∉ recognizedOpcodes := by
  simp [dispatch_eq_none, recognizedOpcodes_eq_map_opcode, mem_all]

/-- Settles O9: the decoder rejects the byte at the pc before it reads any operand byte, and the step is that fault. -/
theorem unrecognizedOpcodeStopsTheCore : Obligations.UnrecognizedOpcodeStopsTheCore := fun _ hr hop =>
  step_of_unrecognized hr (dispatch_eq_none_iff_not_recognized.mpr hop)

end Sys2Proof.Machine
end

section
/-! SUPPORT. The operand faults of a format, from what its meaning does on an operand byte above 7
(40_fetch_decode_execute.md R133, R134). -/

namespace Sys2Proof.Machine

/-- The opcode byte at the pc, as the statements write it, selects its operation. -/
theorem dispatch_opcodeByte {s : State} {o : Op} (h : s.mem.read s.pc = o.opcode) :
    dispatch s.opcodeByte = some o := by
  rw [State.opcodeByte, h, dispatch_opcode]

/-- A meaning that checks its register operand first raises BAD_REGISTER, whatever it would go on to do. -/
theorem perform_regOperand_of_ge {b : Byte} (h : 7 < b.toNat) (s : State)
    (g : RegIndex → Except FaultReport State) :
    perform s (regOperand b >>= g) = .next (s.enterFault ⟨.badRegister, b⟩) := by
  rw [regOperand_of_ge h, error_bind, perform_error]

theorem operandFaultsR {s : State} {o : Op} {mk : Byte → Instr} (hr : s.status = .running)
    (hd : dispatch s.opcodeByte = some o) (ha : assemble o = oneOperand mk) (hc : o.format.operandCount = 1)
    (hbad : ∀ b u, 7 < b.toNat → exec (mk b) u = .next (u.enterFault ⟨.badRegister, b⟩)) : OperandFaultsR s := by
  obtain ⟨hrange, hexec⟩ := step_formatR hr hd ha hc
  refine ⟨hrange, fun hpc hop => ?_⟩
  rw [hexec (by bv_omega), hbad _ _ hop, faultStop_eq]

/-- Also the first part of the operand faults of ADD, MUL and CMP. -/
theorem operandFaultsRI {s : State} {o : Op} {mk : Byte → Byte → Instr} (hr : s.status = .running)
    (hd : dispatch s.opcodeByte = some o) (ha : assemble o = twoOperands mk) (hc : o.format.operandCount = 2)
    (hbad : ∀ b c u, 7 < b.toNat → exec (mk b c) u = .next (u.enterFault ⟨.badRegister, b⟩)) :
    OperandFaultsRI s := by
  obtain ⟨hrange, hexec⟩ := step_formatTwo hr hd ha hc
  refine ⟨hrange, fun hpc hop => ?_⟩
  rw [hexec hpc, hbad _ _ _ hop, faultStop_eq]

end Sys2Proof.Machine
end

section
/-! SUPPORT. LDI and PRN: what their meanings do, and their rules as steps (41_register_and_output.md R160, R161). -/

namespace Sys2Proof.Machine

/-! ### LDI -/

theorem execLdi_of_le (s : State) (r : RegIndex) (imm : Byte) (h : s.pc.toNat + 3 ≤ 0xFF) :
    execLdi (regByte r) imm s = .next ((s.setReg r imm).setPc (s.pc + 3)) := by
  simp [execLdi, seq_of_le h]

theorem execLdi_of_gt (s : State) (r : RegIndex) (imm : Byte) (h : 0xFF < s.pc.toNat + 3) :
    execLdi (regByte r) imm s = .next (s.enterFault ⟨.pcRange, 0x00⟩) := by
  simp [execLdi, seq_of_gt h]

/-- Settles O19: the fetch and the register check fault as for every 3-byte instruction, and with a register named the
pc alone decides between PC_RANGE and completion. -/
theorem ldiLoadsItsImmediate : Obligations.LdiLoadsItsImmediate := by
  intro s hr hop
  have hd := dispatch_opcodeByte (o := .ldi) hop
  refine ⟨operandFaultsRI hr hd rfl rfl fun _ _ u h => perform_regOperand_of_ge h u _, fun r hreg => ?_⟩
  have hstep := (step_formatTwo hr hd rfl rfl).2
  rw [hreg, show s.opcodeByte = 0x82 from hop] at hstep
  constructor
  · intro hpc
    have hgt : 0xFF < s.pc.toNat + 3 := by simp [hpc]
    rw [hstep (by simp [hpc]), State.faultStop, hop]
    exact execLdi_of_gt (s.setIr 0x82) r s.operand2 hgt
  · intro hpc
    have hle : s.pc.toNat + 3 ≤ 0xFF := by omega
    rw [hstep (by omega)]
    exact execLdi_of_le (s.setIr 0x82) r s.operand2 hle

/-! ### PRN -/

theorem execPrn_of_le (s : State) (r : RegIndex) (h : s.pc.toNat + 2 ≤ 0xFF) :
    execPrn (regByte r) s = .next ((s.emit (s.reg r)).setPc (s.pc + 2)) := by
  simp [execPrn, seq_of_le h]

theorem execPrn_of_gt (s : State) (r : RegIndex) (h : 0xFF < s.pc.toNat + 2) :
    execPrn (regByte r) s = .next (s.enterFault ⟨.pcRange, 0x00⟩) := by
  simp [execPrn, seq_of_gt h]

/-- Settles O20: the fetch and the register check fault as for every 2-byte instruction, and with a register named the
pc alone decides between PC_RANGE, with nothing emitted, and completion. -/
theorem prnEmitsItsRegister : Obligations.PrnEmitsItsRegister := by
  intro s hr hop
  have hd := dispatch_opcodeByte (o := .prn) hop
  refine ⟨operandFaultsR hr hd rfl rfl fun _ u h => perform_regOperand_of_ge h u _, fun r hreg => ?_⟩
  have hstep := (step_formatR hr hd rfl rfl).2
  rw [hreg, show s.opcodeByte = 0x47 from hop] at hstep
  constructor
  · intro hpc
    have hgt : 0xFF < s.pc.toNat + 2 := by simp [hpc]
    rw [hstep (by simp [hpc]), State.faultStop, hop]
    exact execPrn_of_gt (s.setIr 0x47) r hgt
  · intro hpc
    have hle : s.pc.toNat + 2 ≤ 0xFF := by omega
    rw [hstep (by omega)]
    exact execPrn_of_le (s.setIr 0x47) r hle

end Sys2Proof.Machine
end

section
/-! SUPPORT. Who writes the output stream (41_register_and_output.md R162): every meaning but PRN's keeps it, and a
fault keeps it too. -/

namespace Sys2Proof.Machine

/-- A rule that ends without a fault leaves a state with the property. -/
def RuleLeaves (P : State → Prop) (rule : Except FaultReport State) : Prop := ∀ u, rule = .ok u → P u

theorem ruleLeaves_ok {P : State → Prop} {u : State} (h : P u) : RuleLeaves P (.ok u) := by
  intro v hv
  cases hv
  exact h

/-- What a do block leaves is what its last part leaves. -/
theorem RuleLeaves.bind {α : Type} {P : State → Prop} {x : Except FaultReport α} {g : α → Except FaultReport State}
    (h : ∀ a, RuleLeaves P (g a)) : RuleLeaves P (x >>= g) := by
  intro u hu
  obtain ⟨a, -, ha⟩ := bind_eq_ok hu
  exact h a u ha

theorem perform_keeps_out {s t : State} {rule : Except FaultReport State}
    (h : perform s rule = .next t) (hrule : RuleLeaves (fun u => u.out = s.out) rule) : t.out = s.out := by
  obtain hok | ⟨f, -, rfl⟩ := perform_cases h
  · exact hrule t hok
  · rfl

theorem aluWrite_keeps_out {f : Byte → Byte → Byte} {ra rb : Byte} {s t : State}
    (h : aluWrite f ra rb s = .next t) : t.out = s.out :=
  perform_keeps_out h (.bind fun _ => .bind fun _ => .bind fun _ => ruleLeaves_ok rfl)

theorem jumpIf_keeps_out {taken : Bool} {r : Byte} {s t : State} (h : jumpIf taken r s = .next t) :
    t.out = s.out := by
  obtain ⟨d, -, ⟨-, rfl⟩ | ⟨-, -, rfl⟩⟩ | ⟨g, rfl⟩ := jumpIf_cases h <;> rfl

theorem exec_keeps_out {i : Instr} {s t : State} (hprn : i.op ≠ .prn) (h : exec i s = .next t) : t.out = s.out := by
  cases i with
  | prn r => exact absurd rfl hprn
  | hlt =>
    cases h
    rfl
  | ret | jmp r => exact perform_keeps_out h (.bind fun _ => ruleLeaves_ok rfl)
  | ldi r imm => exact perform_keeps_out h (.bind fun _ => .bind fun _ => ruleLeaves_ok rfl)
  | push r | pop r | call r | cmp ra rb =>
    exact perform_keeps_out h (.bind fun _ => .bind fun _ => .bind fun _ => ruleLeaves_ok rfl)
  | jeq r | jne r => exact jumpIf_keeps_out h
  | add ra rb | mul ra rb => exact aluWrite_keeps_out h

theorem step_keeps_out {s t : State} (h : step s = .next t) (hop : s.opcodeByte ≠ Op.opcode .prn) : t.out = s.out := by
  obtain ⟨-, ⟨g, -, rfl⟩ | ⟨i, hf, he⟩⟩ := step_cases h
  · rfl
  · exact exec_keeps_out (s := s.setIr s.opcodeByte) (mt (opcodeByte_eq_iff_of_fetched hf .prn).mpr hop) he

/-- All that PRN can do: emit the register its operand names and go on, or fault. -/
theorem execPrn_cases {r : Byte} {s t : State} (h : execPrn r s = .next t) :
    (∃ d, r = regByte d ∧ s.pc.toNat + 2 ≤ 0xFF ∧ t = (s.emit (s.reg d)).setPc (s.pc + 2)) ∨
    ∃ g, t = s.enterFault g := by
  obtain hrule | ⟨g, -, rfl⟩ := perform_cases h
  · obtain ⟨d, hd, hnext⟩ := bind_eq_ok hrule
    obtain ⟨n, hn, ht⟩ := bind_eq_ok hnext
    obtain ⟨hle, rfl⟩ := seq_ok hn
    cases ht
    exact .inl ⟨d, regOperand_ok hd, hle, rfl⟩
  · exact .inr ⟨g, rfl⟩

theorem step_out_of_prn {s t : State} (h : step s = .next t) (hop : s.opcodeByte = Op.opcode .prn) :
    t.out = s.out ∨ ∃ r, s.operand1 = regByte r ∧ t.out = s.out ++ [s.reg r] := by
  obtain ⟨hrange, hexec⟩ := step_formatR (running_of_step h) (dispatch_opcodeByte hop) rfl rfl
  by_cases hpc : s.pc = 0xFF
  · rw [hrange hpc] at h
    cases h
    exact .inl rfl
  · rw [hexec (by bv_omega)] at h
    obtain ⟨r, hreg, -, rfl⟩ | ⟨g, rfl⟩ := execPrn_cases h
    · exact .inr ⟨r, hreg, rfl⟩
    · exact .inl rfl

/-- Settles O15: a step at any other opcode keeps the output, and PRN appends its register or faults. -/
theorem onlyPrnEmits : Obligations.OnlyPrnEmits := by
  intro s t h
  by_cases hop : s.opcodeByte = Op.opcode .prn
  · exact (step_out_of_prn h hop).imp_right (⟨hop, ·⟩)
  · exact .inl (step_keeps_out h hop)

end Sys2Proof.Machine
end

section
/-! SUPPORT. RET and JMP: what their meanings do, and their rules as steps (43_control_transfer.md R181, R182). -/

namespace Sys2Proof.Machine

/-! ### RET -/

theorem execRet_of_room {s : State} (h : s.sp ≠ 0xFF) : execRet s = .next (s.popped.setPc s.top) := by
  simp [execRet, popRoom_of_ne h]

theorem execRet_of_full {s : State} (h : s.sp = 0xFF) : execRet s = .next (s.enterFault ⟨.stackUnderflow, 0xFF⟩) := by
  simp [execRet, popRoom_of_full h]

/-- Settles O24: a fetch of one byte cannot fault, so SP alone decides between STACK_UNDERFLOW and the jump. -/
theorem retJumpsToThePoppedByte : Obligations.RetJumpsToThePoppedByte := by
  intro s hr hop
  have hstep := step_formatN hr (dispatch_opcodeByte (o := .ret) hop) rfl
  constructor
  · intro hsp
    rw [hstep, ← faultStop_eq s ⟨.stackUnderflow, 0xFF⟩]
    exact execRet_of_full (s := s.setIr s.opcodeByte) hsp
  · intro hsp
    rw [hstep, show s.opcodeByte = 0x11 from hop]
    exact execRet_of_room (s := s.setIr 0x11) hsp

/-! ### JMP -/

theorem execJmp_regByte (s : State) (r : RegIndex) : execJmp (regByte r) s = .next (s.setPc (s.reg r)) := by
  simp [execJmp]

/-- Settles O25: past the fetch and the register check JMP always completes, since it asks for no successor address. -/
theorem jmpGoesToItsRegister : Obligations.JmpGoesToItsRegister := by
  intro s hr hop
  have hd := dispatch_opcodeByte (o := .jmp) hop
  refine ⟨operandFaultsR hr hd rfl rfl fun _ u h => perform_regOperand_of_ge h u _, fun r hreg hpc => ?_⟩
  rw [(step_formatR hr hd rfl rfl).2 (by bv_omega), hreg, show s.opcodeByte = 0x54 from hop]
  exact execJmp_regByte (s.setIr 0x54) r

end Sys2Proof.Machine
end

section
/-! SUPPORT. JEQ and JNE: the flags that each jumps on, what the end they share does, and their rules as steps
(43_control_transfer.md R183 to R185). -/

namespace Sys2Proof.Machine

/-! ### The flags -/

theorem jeqTaken_eq_true_iff {f : Flag} : jeqTaken f = true ↔ f = .equal := by cases f <;> simp [jeqTaken]

theorem jeqTaken_eq_false_iff {f : Flag} : jeqTaken f = false ↔ f ≠ .equal := by
  rw [← Bool.not_eq_true, jeqTaken_eq_true_iff]

theorem jneTaken_eq_true_iff {f : Flag} : jneTaken f = true ↔ f = .lessThan ∨ f = .greaterThan := by
  cases f <;> simp [jneTaken]

theorem jneTaken_eq_false_iff {f : Flag} : jneTaken f = false ↔ f = .equal ∨ f = .unset := by
  cases f <;> simp [jneTaken]

/-! ### The end that JEQ and JNE share -/

theorem jumpIf_true (s : State) (r : RegIndex) : jumpIf true (regByte r) s = .next (s.setPc (s.reg r)) := by
  simp [jumpIf]

theorem jumpIf_false_of_le (s : State) (r : RegIndex) (h : s.pc.toNat + 2 ≤ 0xFF) :
    jumpIf false (regByte r) s = .next (s.setPc (s.pc + 2)) := by
  simp [jumpIf, seq_of_le h]

theorem jumpIf_false_of_gt (s : State) (r : RegIndex) (h : 0xFF < s.pc.toNat + 2) :
    jumpIf false (regByte r) s = .next (s.enterFault ⟨.pcRange, 0x00⟩) := by
  simp [jumpIf, seq_of_gt h]

/-- A step whose meaning is the shared end, with a register named: taken, it needs no successor address. -/
theorem step_of_exec_eq_jumpIf {s : State} {o : Op} {mk : Byte → Instr} {taken : Bool} {r : RegIndex}
    (hr : s.status = .running) (hop : s.mem.read s.pc = o.opcode) (ha : assemble o = oneOperand mk)
    (hc : o.format.operandCount = 1) (hreg : s.operand1 = regByte r)
    (hexec : exec (mk (regByte r)) (s.setIr o.opcode) = jumpIf taken (regByte r) (s.setIr o.opcode)) :
    (s.pc ≠ 0xFF → taken = true → step s = .next { s with ir := o.opcode, pc := s.reg r }) ∧
    (s.pc = 0xFE → taken = false → step s = .next (s.faultStop .pcRange 0x00)) ∧
    (s.pc.toNat < 0xFE → taken = false → step s = .next { s with ir := o.opcode, pc := s.pc + 2 }) := by
  have hstep := (step_formatR hr (dispatch_opcodeByte hop) ha hc).2
  rw [hreg, show s.opcodeByte = o.opcode from hop, hexec] at hstep
  refine ⟨?_, ?_, ?_⟩
  · rintro hpc rfl
    rw [hstep (by bv_omega)]
    exact jumpIf_true (s.setIr o.opcode) r
  · rintro hpc rfl
    have hgt : 0xFF < s.pc.toNat + 2 := by simp [hpc]
    rw [hstep (by simp [hpc]), State.faultStop, hop]
    exact jumpIf_false_of_gt (s.setIr o.opcode) r hgt
  · rintro hpc rfl
    have hle : s.pc.toNat + 2 ≤ 0xFF := by omega
    rw [hstep (by omega)]
    exact jumpIf_false_of_le (s.setIr o.opcode) r hle

/-- Settles O26: the fetch and the register check fault as for every 2-byte instruction, before FL is read; then JEQ
ends as the shared end does, taken in Equal only. -/
theorem jeqJumpsWhenEqual : Obligations.JeqJumpsWhenEqual := by
  intro s hr hop
  have hd := dispatch_opcodeByte (o := .jeq) hop
  refine ⟨operandFaultsR hr hd rfl rfl fun _ u h => perform_regOperand_of_ge h u _, fun r hreg => ?_⟩
  simp only [← jeqTaken_eq_true_iff, ← jeqTaken_eq_false_iff]
  exact step_of_exec_eq_jumpIf (o := .jeq) hr hop rfl rfl hreg rfl

/-- Settles O27: as for JEQ, with the shared end taken in LessThan and GreaterThan only. -/
theorem jneJumpsWhenLessOrGreater : Obligations.JneJumpsWhenLessOrGreater := by
  intro s hr hop
  have hd := dispatch_opcodeByte (o := .jne) hop
  refine ⟨operandFaultsR hr hd rfl rfl fun _ u h => perform_regOperand_of_ge h u _, fun r hreg => ?_⟩
  simp only [← jneTaken_eq_true_iff, ← jneTaken_eq_false_iff]
  exact step_of_exec_eq_jumpIf (o := .jne) hr hop rfl rfl hreg rfl

end Sys2Proof.Machine
end

section
/-! SUPPORT. ADD, MUL and CMP: the rule they share, what each writes by it, and their rules as steps (44_alu.md R200 to
R203). -/

namespace Sys2Proof.Machine

/-! ### The rule that the three share -/

/-- Both registers named, then a successor address; `write` is the instruction's own part, from the state before. -/
def twoRegisters (write : State → RegIndex → RegIndex → State) (ra rb : Byte) (s : State) : Result State :=
  perform s do
    let a ← regOperand ra
    let b ← regOperand rb
    let next ← seq s.pc 3
    return (write s a b).setPc next

section
variable (write : State → RegIndex → RegIndex → State)

theorem twoRegisters_of_bad_first {ra : Byte} (h : 7 < ra.toNat) (rb : Byte) (s : State) :
    twoRegisters write ra rb s = .next (s.enterFault ⟨.badRegister, ra⟩) :=
  perform_regOperand_of_ge h s _

theorem twoRegisters_of_bad_second {rb : Byte} (h : 7 < rb.toNat) (a : RegIndex) (s : State) :
    twoRegisters write (regByte a) rb s = .next (s.enterFault ⟨.badRegister, rb⟩) := by
  rw [twoRegisters, regOperand_regByte, ok_bind, perform_regOperand_of_ge h]

theorem twoRegisters_of_le {s : State} (h : s.pc.toNat + 3 ≤ 0xFF) (a b : RegIndex) :
    twoRegisters write (regByte a) (regByte b) s = .next ((write s a b).setPc (s.pc + 3)) := by
  simp [twoRegisters, seq_of_le h]

theorem twoRegisters_of_gt {s : State} (h : 0xFF < s.pc.toNat + 3) (a b : RegIndex) :
    twoRegisters write (regByte a) (regByte b) s = .next (s.enterFault ⟨.pcRange, 0x00⟩) := by
  simp [twoRegisters, seq_of_gt h]

end

/-! ### A step by the shared rule -/

section
variable {s : State} {o : Op} {mk : Byte → Byte → Instr} {write : State → RegIndex → RegIndex → State}
  (hr : s.status = .running) (hop : s.mem.read s.pc = o.opcode) (ha : assemble o = twoOperands mk)
  (hc : o.format.operandCount = 2) (hexec : ∀ ra rb u, exec (mk ra rb) u = twoRegisters write ra rb u)
include hr hop ha hc hexec

theorem operandFaultsRR_of_twoRegisters : OperandFaultsRR s := by
  have hd := dispatch_opcodeByte hop
  refine ⟨operandFaultsRI hr hd ha hc fun b c u h => ?_, fun hpc hfirst hsecond => ?_⟩
  · rw [hexec, twoRegisters_of_bad_first write h]
  · obtain ⟨a, hreg⟩ := exists_regByte hfirst
    rw [(step_formatTwo hr hd ha hc).2 hpc, hexec, hreg, twoRegisters_of_bad_second write hsecond, faultStop_eq]

/-- With both registers named, the pc alone decides between PC_RANGE and completion. -/
theorem step_of_twoRegisters :
    OperandFaultsRR s ∧
    ∀ a b, s.operand1 = regByte a → s.operand2 = regByte b →
      (s.pc = 0xFD → step s = .next (s.faultStop .pcRange 0x00)) ∧
      (s.pc.toNat < 0xFD → step s = .next ((write (s.setIr o.opcode) a b).setPc (s.pc + 3))) := by
  refine ⟨operandFaultsRR_of_twoRegisters hr hop ha hc hexec, fun a b hfirst hsecond => ?_⟩
  have hstep := (step_formatTwo hr (dispatch_opcodeByte hop) ha hc).2
  rw [hfirst, hsecond, hexec] at hstep
  constructor
  · intro hpc
    have hgt : 0xFF < (s.setIr s.opcodeByte).pc.toNat + 3 := by simp [hpc]
    rw [hstep (by simp [hpc]), twoRegisters_of_gt write hgt, faultStop_eq]
  · intro hpc
    have hle : (s.setIr o.opcode).pc.toNat + 3 ≤ 0xFF := by
      rw [State.setIr_pc]
      omega
    rw [hstep (by omega), show s.opcodeByte = o.opcode from hop, twoRegisters_of_le write hle, State.setIr_pc]

end

/-! ### ADD and MUL -/

/-- What ADD and MUL write: the first register, from the values of both. -/
def State.writeResult (f : Byte → Byte → Byte) (s : State) (a b : RegIndex) : State :=
  s.setReg a (f (s.reg a) (s.reg b))

theorem aluWrite_eq_twoRegisters (f : Byte → Byte → Byte) (ra rb : Byte) (s : State) :
    aluWrite f ra rb s = twoRegisters (State.writeResult f) ra rb s := rfl

theorem ofNat_mod_256 (n : Nat) : BitVec.ofNat 8 (n % 256) = BitVec.ofNat 8 n :=
  BitVec.eq_of_toNat_eq (by simp)

theorem aluAdd_eq_mod (va vb : Byte) : aluAdd va vb = BitVec.ofNat 8 ((va.toNat + vb.toNat) % 256) :=
  (ofNat_mod_256 _).symm

theorem aluMul_eq_mod (va vb : Byte) : aluMul va vb = BitVec.ofNat 8 ((va.toNat * vb.toNat) % 256) :=
  (ofNat_mod_256 _).symm

/-- Settles O28: the shared rule with the sum as its result. -/
theorem addWritesTheSumModulo256 : Obligations.AddWritesTheSumModulo256 := by
  intro s hr hop
  simp only [← aluAdd_eq_mod]
  exact step_of_twoRegisters (o := .add) hr hop rfl rfl (aluWrite_eq_twoRegisters aluAdd)

/-- Settles O29: the shared rule with the product as its result. -/
theorem mulWritesTheProductModulo256 : Obligations.MulWritesTheProductModulo256 := by
  intro s hr hop
  simp only [← aluMul_eq_mod]
  exact step_of_twoRegisters (o := .mul) hr hop rfl rfl (aluWrite_eq_twoRegisters aluMul)

/-! ### CMP -/

/-- What CMP writes: FL, from the values of both registers. -/
def State.writeOrder (s : State) (a b : RegIndex) : State := s.setFl (compareFlag (s.reg a) (s.reg b))

theorem execCmp_eq_twoRegisters (ra rb : Byte) (s : State) :
    execCmp ra rb s = twoRegisters State.writeOrder ra rb s := rfl

theorem compareFlag_of_lt {va vb : Byte} (h : va.toNat < vb.toNat) : compareFlag va vb = .lessThan := if_pos h

theorem compareFlag_of_gt {va vb : Byte} (h : vb.toNat < va.toNat) : compareFlag va vb = .greaterThan := by
  rw [compareFlag, if_neg h.not_gt, if_pos h]

theorem compareFlag_of_eq {va vb : Byte} (h : va.toNat = vb.toNat) : compareFlag va vb = .equal := by
  rw [compareFlag, if_neg h.not_lt, if_neg h.not_gt]

/-- Settles O30: the shared rule, and each of the three orders gives FL its value. -/
theorem cmpRecordsTheUnsignedOrder : Obligations.CmpRecordsTheUnsignedOrder := by
  intro s hr hop
  obtain ⟨hfaults, hnamed⟩ := step_of_twoRegisters (o := .cmp) hr hop rfl rfl execCmp_eq_twoRegisters
  refine ⟨hfaults, fun ra rb hfirst hsecond => ?_⟩
  obtain ⟨hrange, hnext⟩ := hnamed ra rb hfirst hsecond
  have hflag : ∀ f, compareFlag (s.reg ra) (s.reg rb) = f → s.pc.toNat < 0xFD →
      step s = .next { s with ir := 0xA7, fl := f, pc := s.pc + 3 } := by
    rintro f rfl
    exact hnext
  exact ⟨hrange, fun hpc => ⟨fun h => hflag _ (compareFlag_of_lt h) hpc, fun h => hflag _ (compareFlag_of_gt h) hpc,
    fun h => hflag _ (compareFlag_of_eq h) hpc⟩⟩

end Sys2Proof.Machine
end

section
/-! SUPPORT AND PROOF. The reset state (70_reset_and_hazards.md R270). -/

namespace Sys2Proof.Machine

/-- Register 7, the stack pointer, is the one register whose reset value is not zero (R34). -/
theorem reg_reset (r : RegIndex) : State.reset.reg r = if r = Config.spIndex then Config.spReset else 0x00 := by
  revert r
  decide

/-- The reset memory lists no byte, so every address reads as unlisted. -/
theorem read_mem_reset (a : Byte) : State.reset.mem.read a = 0x00 := Memory.read_nil a

/-- Settles O48: the registers and the memory by their lemmas; every other piece is the reset state's own field. -/
theorem resetGivesEveryPieceItsValue : Obligations.ResetGivesEveryPieceItsValue := by
  have hregs : ∀ r : RegIndex, State.reset.reg r = if r.val = 7 then 0xF4 else 0x00 := fun r => by
    simp only [reg_reset, Fin.ext_iff]
    rfl
  exact ⟨hregs, rfl, rfl, rfl, read_mem_reset, rfl, rfl, rfl, rfl, rfl, rfl⟩

end Sys2Proof.Machine
end

section
/-! SUPPORT AND PROOF. Encoding and decoding: the round trip both ways, and the bytes rejected as unknown opcodes
(30_encoding.md R101 to R109). -/

namespace Sys2Proof

/-! ### The round trip -/

theorem encode_append (i : Instr) (rest : List Byte) :
    encode i ++ rest = i.op.opcode :: (i.operands ++ rest) := rfl

/-- Taking the operands of an operation from the operand bytes of an instruction builds that instruction. -/
theorem assemble_operands (i : Instr) (rest : List Byte) : assemble i.op (i.operands ++ rest) = some (i, rest) := by
  cases i <;> rfl

/-- Settles O1: the opcode byte dispatches to the instruction's own operation, which then takes back exactly the operand
bytes. -/
theorem decodeOfEncodeIsTheInstruction : Obligations.DecodeOfEncodeIsTheInstruction := by
  intro i rest
  rw [encode_append, decode_opcode_cons, assemble_operands]

theorem decode_encode (i : Instr) : decode (encode i) = .ok (i, []) := by
  simpa using decodeOfEncodeIsTheInstruction i []

/-- The bytes that an operation takes are the operand bytes of the instruction it builds. -/
theorem eq_operands_append_of_assemble {o : Op} {bytes rest : List Byte} {i : Instr}
    (h : assemble o bytes = some (i, rest)) : bytes = i.operands ++ rest := by
  cases o with
  | hlt | ret =>
    cases h
    rfl
  | push | pop | prn | call | jmp | jeq | jne =>
    obtain ⟨b, rfl, rfl⟩ := oneOperand_eq_some h
    rfl
  | ldi | add | mul | cmp =>
    obtain ⟨a, b, rfl, rfl⟩ := twoOperands_eq_some h
    rfl

/-- What a successful decode has done: dispatched its first byte, and assembled the operation from the rest. -/
theorem decode_eq_ok {bytes : List Byte} {found : Instr × List Byte} (h : decode bytes = .ok found) :
    ∃ o tail, bytes = o.opcode :: tail ∧ assemble o tail = some found := by
  cases bytes with
  | nil => cases h
  | cons op tail =>
    cases hd : dispatch op with
    | none =>
      rw [decode_cons_of_none hd] at h
      cases h
    | some o =>
      obtain rfl := opcode_of_dispatch hd
      rw [decode_opcode_cons] at h
      split at h
      · cases h
      next ha =>
        cases h
        exact ⟨o, tail, rfl, ha⟩

/-- Settles O2: the first byte is the opcode of the operation that was dispatched to, and the bytes that operation took
are the instruction's operands. -/
theorem decodedBytesAreTheEncoding : Obligations.DecodedBytesAreTheEncoding := by
  intro bytes i rest h
  obtain ⟨o, tail, rfl, ha⟩ := decode_eq_ok h
  rw [encode_append, op_of_assemble ha, eq_operands_append_of_assemble ha]

/-- Settles O5: each word is the encoding of its instruction, with nothing after it. -/
theorem sampleWordsDecodeAsWritten : Obligations.SampleWordsDecodeAsWritten :=
  ⟨decode_encode (.ldi 0 8), decode_encode (.prn 0), decode_encode .hlt, decode_encode (.add 1 2),
    decode_encode (.call 3), decode_encode .ret, decode_encode (.push 7), decode_encode (.cmp 2 1)⟩

/-! ### Unknown opcodes -/

theorem decode_eq_unknownOpcode_iff (op : Byte) (rest : List Byte) :
    decode (op :: rest) = .error (.unknownOpcode op) ↔ dispatch op = none := by
  refine ⟨fun h => ?_, fun h => decode_cons_of_none h rest⟩
  cases hd : dispatch op with
  | none => rfl
  | some o =>
    rw [opcode_of_dispatch hd, decode_opcode_cons] at h
    split at h <;> cases h

/-- Settles O3: a byte is rejected when it is none of the 13 opcodes; the four ranges part the bytes by bits 7:6, and
each leaves out the opcodes that lie in it. -/
theorem unknownOpcodesAreExactlyTheUnrecognizedBytes : Obligations.UnknownOpcodesAreExactlyTheUnrecognizedBytes := by
  intro op rest
  rw [decode_eq_unknownOpcode_iff, Machine.dispatch_eq_none_iff_not_recognized]
  simp only [Machine.recognizedOpcodes, Machine.oneByteOpcodes, Machine.twoByteOpcodes, Machine.threeByteOpcodes,
    List.cons_append, List.nil_append, List.mem_cons, List.not_mem_nil, or_false, not_or]
  bv_omega

end Sys2Proof
end

section
/-! SUPPORT AND PROOF. The step of a RUNNING core as the meaning of the instruction at the pc
(40_fetch_decode_execute.md R131 to R138). -/

namespace Sys2Proof.Machine

/-! ### The fetch window -/

/-- A shorter window is the beginning of a longer one. -/
theorem Memory.bytesFrom_eq_take (m : Memory) {k n : Nat} (h : k ≤ n) (a : Nat) :
    m.bytesFrom a k = (m.bytesFrom a n).take k := by
  induction n generalizing a k with
  | zero =>
    obtain rfl := Nat.le_zero.mp h
    rfl
  | succ n ih =>
    cases k with
    | zero => rfl
    | succ k =>
      by_cases ha : a ≤ 0xFF
      · rw [bytesFrom_succ ha, bytesFrom_succ ha, List.take_succ_cons, ih (by omega)]
      · rw [bytesFrom_of_gt (by omega), bytesFrom_of_gt (by omega), List.take_nil]

theorem length_encode_le (i : Instr) : (encode i).length ≤ longestInstr := by
  rw [length_encode, length_operands]
  cases i.op <;> decide

/-- Where exactly the encoding of an instruction stands at the pc, the fetch finds that instruction. -/
theorem fetchInstr_of_window {s : State} {i : Instr}
    (h : s.mem.bytesFrom s.pc.toNat (encode i).length = encode i) : fetchInstr s = .ok i := by
  have hop : s.opcodeByte = i.op.opcode := by
    rw [length_encode, window_eq] at h
    exact (List.cons.inj h).1
  rw [fetchInstr, hop, lengthOf_opcode_eq_length_encode, h, decode_encode]

theorem step_of_fetched {s : State} {i : Instr} (hr : s.status = .running) (h : fetchInstr s = .ok i) :
    step s = exec i { s with ir := s.mem.read s.pc } := by
  rw [step_of_running hr, cycle_of_fetched h]
  rfl

/-- Settles O6: what decodes from three bytes begins with its encoding, and the fetch reads just as many bytes of it. -/
theorem stepRunsTheDecodedInstruction : Obligations.StepRunsTheDecodedInstruction := by
  intro s i rest hr h
  have hbytes : s.mem.bytesFrom s.pc.toNat longestInstr = encode i ++ rest := decodedBytesAreTheEncoding _ _ _ h
  apply step_of_fetched hr
  apply fetchInstr_of_window
  rw [Memory.bytesFrom_eq_take _ (length_encode_le i), hbytes, List.take_left]

/-- Settles O7: byte by byte, the window of the instruction's length is its encoding. -/
theorem stepRunsTheInstructionInMemory : Obligations.StepRunsTheInstructionInMemory := by
  intro s i hr h
  have hfit : s.pc.toNat + (encode i).length ≤ 256 := by
    have hlast := (h i.operands.length (by rw [length_encode]; omega)).1
    rw [length_encode]
    omega
  apply step_of_fetched hr
  apply fetchInstr_of_window
  apply List.ext_getElem?
  intro k
  by_cases hk : k < (encode i).length
  · rw [Memory.getElem?_bytesFrom _ _ _ _ hk hfit, (h k hk).2, List.getElem?_eq_getElem hk]
  · rw [List.getElem?_eq_none (by rw [Memory.length_bytesFrom _ _ _ hfit]; omega), List.getElem?_eq_none (by omega)]

/-- Settles O8: a RUNNING core takes the fault of its fetch or runs a meaning, and every meaning answers a next
state. -/
theorem coreStepsExactlyWhileRunning : Obligations.CoreStepsExactlyWhileRunning := by
  intro s
  refine ⟨fun ⟨_, h⟩ => running_of_step h, fun hr => ?_⟩
  rw [step_of_running hr]
  cases hf : fetchInstr s with
  | error f => exact ⟨_, cycle_of_fault hf⟩
  | ok i => exact cycle_of_fetched hf ▸ exec_total i _

end Sys2Proof.Machine
end

section
/-! SUPPORT AND PROOF. PUSH, POP and CALL: the rule they share, what each writes by it, and their rules as steps
(42_stack.md R171 to R173, 43_control_transfer.md R180); and HLT (45_halt.md R220). -/

namespace Sys2Proof.Machine

/-! ### The rule that the three share -/

/-- A register named, room on the stack, then a successor address; `write` is the instruction's own part, from the
state before. -/
def stackRule (room : State → Except FaultReport Unit) (write : State → RegIndex → Byte → State) (r : Byte)
    (s : State) : Result State :=
  perform s do
    let d ← regOperand r
    room s
    let next ← seq s.pc 2
    return write s d next

section
variable {room : State → Except FaultReport Unit} (write : State → RegIndex → Byte → State) {s : State}

theorem stackRule_of_full {f : FaultReport} (h : room s = .error f) (r : RegIndex) :
    stackRule room write (regByte r) s = .next (s.enterFault f) := by
  simp [stackRule, h]

theorem stackRule_of_gt (h : room s = .ok ()) (hpc : 0xFF < s.pc.toNat + 2) (r : RegIndex) :
    stackRule room write (regByte r) s = .next (s.enterFault ⟨.pcRange, 0x00⟩) := by
  simp [stackRule, h, seq_of_gt hpc]

theorem stackRule_of_le (h : room s = .ok ()) (hpc : s.pc.toNat + 2 ≤ 0xFF) (r : RegIndex) :
    stackRule room write (regByte r) s = .next (write s r (s.pc + 2)) := by
  simp [stackRule, h, seq_of_le hpc]

end

/-- All that the shared rule can do. -/
theorem stackRule_cases {room : State → Except FaultReport Unit} {write : State → RegIndex → Byte → State} {r : Byte}
    {s t : State} (h : stackRule room write r s = .next t) :
    (∃ d, r = regByte d ∧ room s = .ok () ∧ s.pc.toNat + 2 ≤ 0xFF ∧ t = write s d (s.pc + 2)) ∨
    ∃ g, t = s.enterFault g := by
  obtain hrule | ⟨g, -, rfl⟩ := perform_cases h
  · obtain ⟨d, hd, hafter⟩ := bind_eq_ok hrule
    obtain ⟨⟨⟩, hroom, hnext⟩ := bind_eq_ok hafter
    obtain ⟨n, hn, ht⟩ := bind_eq_ok hnext
    obtain ⟨hle, rfl⟩ := seq_ok hn
    cases ht
    exact .inl ⟨d, regOperand_ok hd, hroom, hle, rfl⟩
  · exact .inr ⟨g, rfl⟩

/-! ### A step by the shared rule -/

/-- With a register named, the stack pointer is looked at before the pc; `full` is the pointer that leaves no room. -/
theorem step_of_stackRule {s : State} {o : Op} {mk : Byte → Instr} {room : State → Except FaultReport Unit}
    {write : State → RegIndex → Byte → State} {full : Byte} {f : FaultReport}
    (hr : s.status = .running) (hop : s.mem.read s.pc = o.opcode) (ha : assemble o = oneOperand mk)
    (hc : o.format.operandCount = 1) (hexec : ∀ r u, exec (mk r) u = stackRule room write r u)
    (hfull : ∀ u : State, u.sp = full → room u = .error f) (hroom : ∀ u : State, u.sp ≠ full → room u = .ok ()) :
    OperandFaultsR s ∧
    ∀ r, s.operand1 = regByte r →
      (s.pc ≠ 0xFF → s.sp = full → step s = .next (s.faultStop f.cause f.info)) ∧
      (s.pc = 0xFE → s.sp ≠ full → step s = .next (s.faultStop .pcRange 0x00)) ∧
      (s.pc.toNat < 0xFE → s.sp ≠ full → step s = .next (write (s.setIr o.opcode) r (s.pc + 2))) := by
  have hd := dispatch_opcodeByte hop
  refine ⟨operandFaultsR hr hd ha hc fun b u h => ?_, fun r hreg => ?_⟩
  · rw [hexec]
    exact perform_regOperand_of_ge h u _
  have hstep := (step_formatR hr hd ha hc).2
  rw [hreg, hexec] at hstep
  refine ⟨fun hpc hsp => ?_, fun hpc hsp => ?_, fun hpc hsp => ?_⟩
  · rw [hstep (by bv_omega), stackRule_of_full write (hfull (s.setIr s.opcodeByte) hsp), faultStop_eq]
  · have hgt : 0xFF < (s.setIr s.opcodeByte).pc.toNat + 2 := by simp [hpc]
    rw [hstep (by simp [hpc]), stackRule_of_gt write (hroom (s.setIr s.opcodeByte) hsp) hgt, faultStop_eq]
  · have hle : (s.setIr o.opcode).pc.toNat + 2 ≤ 0xFF := by
      rw [State.setIr_pc]
      omega
    rw [hstep (by omega), show s.opcodeByte = o.opcode from hop, 
      stackRule_of_le write (hroom (s.setIr o.opcode) hsp) hle, State.setIr_pc]

/-! ### PUSH, POP and CALL -/

/-- What PUSH writes, `next` being its successor address. -/
def State.writePush (s : State) (d : RegIndex) (next : Byte) : State := (s.push (s.reg d)).setPc next

/-- What POP writes: the register last. -/
def State.writePop (s : State) (d : RegIndex) (next : Byte) : State := (s.popped.setReg d s.top).setPc next

/-- What CALL writes: it stores `next`, its return address. -/
def State.writeCall (s : State) (d : RegIndex) (next : Byte) : State := (s.push next).setPc (s.reg d)

theorem execPush_eq_stackRule (r : Byte) (s : State) : execPush r s = stackRule pushRoom State.writePush r s := rfl

theorem execPop_eq_stackRule (r : Byte) (s : State) : execPop r s = stackRule popRoom State.writePop r s := rfl

theorem execCall_eq_stackRule (r : Byte) (s : State) : execCall r s = stackRule pushRoom State.writeCall r s := rfl

/-- Settles O21: the shared rule, with the push step's room and write. -/
theorem pushStoresBelowTheStackPointer : Obligations.PushStoresBelowTheStackPointer := fun _ hr hop =>
  step_of_stackRule (o := .push) hr hop rfl rfl execPush_eq_stackRule
    (fun _ => pushRoom_of_zero) (fun _ => pushRoom_of_ne)

/-- Settles O22: the shared rule, with the pop step's room and write. -/
theorem popLoadsTheTopOfStack : Obligations.PopLoadsTheTopOfStack := fun _ hr hop =>
  step_of_stackRule (o := .pop) hr hop rfl rfl execPop_eq_stackRule
    (fun _ => popRoom_of_full) (fun _ => popRoom_of_ne)

/-- Settles O23: the shared rule, with the push step's room; the successor address is what is stored. -/
theorem callPushesItsReturnAddress : Obligations.CallPushesItsReturnAddress := fun _ hr hop =>
  step_of_stackRule (o := .call) hr hop rfl rfl execCall_eq_stackRule
    (fun _ => pushRoom_of_zero) (fun _ => pushRoom_of_ne)

/-! ### HLT -/

/-- Settles O31: a fetch of one byte cannot fault, and HLT asks for no successor address. -/
theorem hltStopsTheCore : Obligations.HltStopsTheCore := by
  intro s hr hop
  rw [step_formatN hr (dispatch_opcodeByte (o := .hlt) hop) rfl, ofNat_mod_256, show s.opcodeByte = 0x01 from hop]
  rfl

end Sys2Proof.Machine
end

section
/-! SUPPORT. What each meaning writes when it does not fault, said once for all instructions, and both directions of it:
a meaning ends so or enters a fault, and under the conditions given it does end so. -/

namespace Sys2Proof.Machine

/-- `Completes s i t`: from `s` the instruction `i` may end without a fault, and leaves `t`. One constructor per
instruction, two for each conditional jump's two ends; the premises are the conditions for not faulting. -/
inductive Completes (s : State) : Instr → State → Prop where
  | hlt : Completes s .hlt ((s.setStatus .halted).setPc (s.pc + 1))
  | ret : s.sp ≠ 0xFF → Completes s .ret (s.popped.setPc s.top)
  | push {r : Byte} (d : RegIndex) : r = regByte d → s.sp ≠ 0x00 → s.pc.toNat + 2 ≤ 0xFF →
      Completes s (.push r) (s.writePush d (s.pc + 2))
  | pop {r : Byte} (d : RegIndex) : r = regByte d → s.sp ≠ 0xFF → s.pc.toNat + 2 ≤ 0xFF →
      Completes s (.pop r) (s.writePop d (s.pc + 2))
  | prn {r : Byte} (d : RegIndex) : r = regByte d → s.pc.toNat + 2 ≤ 0xFF →
      Completes s (.prn r) ((s.emit (s.reg d)).setPc (s.pc + 2))
  | call {r : Byte} (d : RegIndex) : r = regByte d → s.sp ≠ 0x00 → s.pc.toNat + 2 ≤ 0xFF →
      Completes s (.call r) (s.writeCall d (s.pc + 2))
  | jmp {r : Byte} (d : RegIndex) : r = regByte d → Completes s (.jmp r) (s.setPc (s.reg d))
  | jeqTaken {r : Byte} (d : RegIndex) : r = regByte d → jeqTaken s.fl = true →
      Completes s (.jeq r) (s.setPc (s.reg d))
  | jeqNotTaken {r : Byte} (d : RegIndex) : r = regByte d → jeqTaken s.fl = false → s.pc.toNat + 2 ≤ 0xFF →
      Completes s (.jeq r) (s.setPc (s.pc + 2))
  | jneTaken {r : Byte} (d : RegIndex) : r = regByte d → jneTaken s.fl = true →
      Completes s (.jne r) (s.setPc (s.reg d))
  | jneNotTaken {r : Byte} (d : RegIndex) : r = regByte d → jneTaken s.fl = false → s.pc.toNat + 2 ≤ 0xFF →
      Completes s (.jne r) (s.setPc (s.pc + 2))
  | ldi {r imm : Byte} (d : RegIndex) : r = regByte d → s.pc.toNat + 3 ≤ 0xFF →
      Completes s (.ldi r imm) ((s.setReg d imm).setPc (s.pc + 3))
  | add {ra rb : Byte} (a b : RegIndex) : ra = regByte a → rb = regByte b → s.pc.toNat + 3 ≤ 0xFF →
      Completes s (.add ra rb) ((s.writeResult aluAdd a b).setPc (s.pc + 3))
  | mul {ra rb : Byte} (a b : RegIndex) : ra = regByte a → rb = regByte b → s.pc.toNat + 3 ≤ 0xFF →
      Completes s (.mul ra rb) ((s.writeResult aluMul a b).setPc (s.pc + 3))
  | cmp {ra rb : Byte} (a b : RegIndex) : ra = regByte a → rb = regByte b → s.pc.toNat + 3 ≤ 0xFF →
      Completes s (.cmp ra rb) ((s.writeOrder a b).setPc (s.pc + 3))

/-! ### A meaning completes so -/

theorem execHlt_eq (s : State) : execHlt s = .next ((s.setStatus .halted).setPc (s.pc + 1)) := by
  rw [execHlt, BitVec.ofNat_add, BitVec.ofNat_toNat, BitVec.setWidth_eq]
  rfl

theorem Completes.exec_eq {s t : State} {i : Instr} (h : Completes s i t) : exec i s = .next t := by
  cases h with
  | hlt => exact execHlt_eq s
  | ret hsp => exact execRet_of_room hsp
  | push d hd hsp hpc => exact hd ▸ stackRule_of_le State.writePush (pushRoom_of_ne hsp) hpc d
  | pop d hd hsp hpc => exact hd ▸ stackRule_of_le State.writePop (popRoom_of_ne hsp) hpc d
  | call d hd hsp hpc => exact hd ▸ stackRule_of_le State.writeCall (pushRoom_of_ne hsp) hpc d
  | prn d hd hpc => exact hd ▸ execPrn_of_le s d hpc
  | jmp d hd => exact hd ▸ execJmp_regByte s d
  | jeqTaken d hd hf => exact hd ▸ (congrArg (jumpIf · _ s) hf).trans (jumpIf_true s d)
  | jneTaken d hd hf => exact hd ▸ (congrArg (jumpIf · _ s) hf).trans (jumpIf_true s d)
  | jeqNotTaken d hd hf hpc => exact hd ▸ (congrArg (jumpIf · _ s) hf).trans (jumpIf_false_of_le s d hpc)
  | jneNotTaken d hd hf hpc => exact hd ▸ (congrArg (jumpIf · _ s) hf).trans (jumpIf_false_of_le s d hpc)
  | ldi d hd hpc => exact hd ▸ execLdi_of_le s d _ hpc
  | add a b ha hb hpc => exact ha ▸ hb ▸ twoRegisters_of_le (State.writeResult aluAdd) hpc a b
  | mul a b ha hb hpc => exact ha ▸ hb ▸ twoRegisters_of_le (State.writeResult aluMul) hpc a b
  | cmp a b ha hb hpc => exact ha ▸ hb ▸ twoRegisters_of_le State.writeOrder hpc a b

/-! ### A meaning completes so or enters a fault -/

theorem pushRoom_ok {s : State} (h : pushRoom s = .ok ()) : s.sp ≠ 0x00 := by
  intro hsp
  rw [pushRoom_of_zero hsp] at h
  cases h

theorem popRoom_ok {s : State} (h : popRoom s = .ok ()) : s.sp ≠ 0xFF := by
  intro hsp
  rw [popRoom_of_full hsp] at h
  cases h

theorem execRet_cases {s t : State} (h : execRet s = .next t) :
    (s.sp ≠ 0xFF ∧ t = s.popped.setPc s.top) ∨ ∃ g, t = s.enterFault g := by
  by_cases hsp : s.sp = 0xFF
  · rw [execRet_of_full hsp] at h
    cases h
    exact .inr ⟨_, rfl⟩
  · rw [execRet_of_room hsp] at h
    cases h
    exact .inl ⟨hsp, rfl⟩

theorem execJmp_cases {r : Byte} {s t : State} (h : execJmp r s = .next t) :
    (∃ d, r = regByte d ∧ t = s.setPc (s.reg d)) ∨ ∃ g, t = s.enterFault g := by
  obtain hrule | ⟨g, -, rfl⟩ := perform_cases h
  · obtain ⟨d, hd, ht⟩ := bind_eq_ok hrule
    cases ht
    exact .inl ⟨d, regOperand_ok hd, rfl⟩
  · exact .inr ⟨g, rfl⟩

theorem execLdi_cases {r imm : Byte} {s t : State} (h : execLdi r imm s = .next t) :
    (∃ d, r = regByte d ∧ s.pc.toNat + 3 ≤ 0xFF ∧ t = (s.setReg d imm).setPc (s.pc + 3)) ∨
    ∃ g, t = s.enterFault g := by
  obtain hrule | ⟨g, -, rfl⟩ := perform_cases h
  · obtain ⟨d, hd, hnext⟩ := bind_eq_ok hrule
    obtain ⟨n, hn, ht⟩ := bind_eq_ok hnext
    obtain ⟨hle, rfl⟩ := seq_ok hn
    cases ht
    exact .inl ⟨d, regOperand_ok hd, hle, rfl⟩
  · exact .inr ⟨g, rfl⟩

theorem twoRegisters_cases {write : State → RegIndex → RegIndex → State} {ra rb : Byte} {s t : State}
    (h : twoRegisters write ra rb s = .next t) :
    (∃ a b, ra = regByte a ∧ rb = regByte b ∧ s.pc.toNat + 3 ≤ 0xFF ∧ t = (write s a b).setPc (s.pc + 3)) ∨
    ∃ g, t = s.enterFault g := by
  obtain hrule | ⟨g, -, rfl⟩ := perform_cases h
  · obtain ⟨a, ha, hsecond⟩ := bind_eq_ok hrule
    obtain ⟨b, hb, hnext⟩ := bind_eq_ok hsecond
    obtain ⟨n, hn, ht⟩ := bind_eq_ok hnext
    obtain ⟨hle, rfl⟩ := seq_ok hn
    cases ht
    exact .inl ⟨a, b, regOperand_ok ha, regOperand_ok hb, hle, rfl⟩
  · exact .inr ⟨g, rfl⟩

/-- All that a meaning can do. -/
theorem exec_cases {i : Instr} {s t : State} (h : exec i s = .next t) :
    Completes s i t ∨ ∃ g, t = s.enterFault g := by
  cases i with
  | hlt =>
    cases (execHlt_eq s).symm.trans h
    exact .inl .hlt
  | ret => exact (execRet_cases h).imp_left fun ⟨hsp, ht⟩ => ht ▸ .ret hsp
  | push r =>
    exact (stackRule_cases (room := pushRoom) (write := State.writePush) h).imp_left fun ⟨d, hd, hroom, hpc, ht⟩ =>
      ht ▸ .push d hd (pushRoom_ok hroom) hpc
  | pop r =>
    exact (stackRule_cases (room := popRoom) (write := State.writePop) h).imp_left fun ⟨d, hd, hroom, hpc, ht⟩ =>
      ht ▸ .pop d hd (popRoom_ok hroom) hpc
  | call r =>
    exact (stackRule_cases (room := pushRoom) (write := State.writeCall) h).imp_left fun ⟨d, hd, hroom, hpc, ht⟩ =>
      ht ▸ .call d hd (pushRoom_ok hroom) hpc
  | prn r => exact (execPrn_cases h).imp_left fun ⟨d, hd, hpc, ht⟩ => ht ▸ .prn d hd hpc
  | jmp r => exact (execJmp_cases h).imp_left fun ⟨d, hd, ht⟩ => ht ▸ .jmp d hd
  | jeq r =>
    refine (jumpIf_cases h).imp_left fun ⟨d, hd, hend⟩ => ?_
    obtain ⟨hf, rfl⟩ | ⟨hf, hpc, rfl⟩ := hend
    · exact .jeqTaken d hd hf
    · exact .jeqNotTaken d hd hf hpc
  | jne r =>
    refine (jumpIf_cases h).imp_left fun ⟨d, hd, hend⟩ => ?_
    obtain ⟨hf, rfl⟩ | ⟨hf, hpc, rfl⟩ := hend
    · exact .jneTaken d hd hf
    · exact .jneNotTaken d hd hf hpc
  | ldi r imm => exact (execLdi_cases h).imp_left fun ⟨d, hd, hpc, ht⟩ => ht ▸ .ldi d hd hpc
  | add ra rb => exact (aluWrite_cases h).imp_left fun ⟨a, b, ha, hb, hpc, ht⟩ => ht ▸ .add a b ha hb hpc
  | mul ra rb => exact (aluWrite_cases h).imp_left fun ⟨a, b, ha, hb, hpc, ht⟩ => ht ▸ .mul a b ha hb hpc
  | cmp ra rb =>
    exact (twoRegisters_cases (write := State.writeOrder) h).imp_left fun ⟨a, b, ha, hb, hpc, ht⟩ =>
      ht ▸ .cmp a b ha hb hpc

/-- Without a fault the rest of the state and the conditions are those of `Completes`. -/
theorem completes_of_exec {i : Instr} {s t : State} (h : exec i s = .next t) (hst : t.status ≠ .faulted) :
    Completes s i t := by
  obtain hc | ⟨g, rfl⟩ := exec_cases h
  · exact hc
  · exact absurd (State.enterFault_status s g) hst

/-! ### What a completed instruction writes, piece by piece -/

theorem eq_of_reg_setReg_ne {s : State} {r j : RegIndex} {v : Byte} (h : (s.setReg r v).reg j ≠ s.reg j) :
    j = r := by
  by_contra hne
  exact h (State.reg_setReg_of_ne s r j v hne)

section
variable {s t : State} {i : Instr}

theorem Completes.status_of_ne_hlt (h : Completes s i t) (hi : i.op ≠ .hlt) : t.status = s.status := by
  cases h with
  | hlt => exact absurd rfl hi
  | _ => rfl

/-- No instruction writes the fault record: only entering a fault does. -/
theorem Completes.record (h : Completes s i t) :
    t.faultCause = s.faultCause ∧ t.faultPc = s.faultPc ∧ t.faultOpcode = s.faultOpcode ∧
      t.faultInfo = s.faultInfo := by
  cases h <;> exact ⟨rfl, rfl, rfl, rfl⟩

theorem Completes.ir (h : Completes s i t) : t.ir = s.ir := by
  cases h <;> rfl

/-- Only the push step of PUSH and CALL stores, and only at the push address (20_memory.md R72). -/
theorem Completes.mem (h : Completes s i t) :
    t.mem = s.mem ∨ i.op ∈ [Op.push, .call] ∧ ∃ v, t.mem = s.mem.write s.pushAddress v := by
  cases h with
  | push | call => exact .inr ⟨by simp [Instr.op], _, rfl⟩
  | _ => exact .inl rfl

/-- A register that a completed instruction changes is one that the table of 10_state.md R33 gives it. -/
theorem Completes.changed_reg (h : Completes s i t) {j : RegIndex} (hj : t.reg j ≠ s.reg j) :
    (i.op ∈ [Op.ldi, .add, .mul] ∧ i.operands.head? = some (regByte j)) ∨
    (i.op ∈ [Op.push, .call, .ret] ∧ j = 7) ∨
    (i.op = .pop ∧ (j = 7 ∨ i.operands.head? = some (regByte j))) := by
  cases h with
  | ldi d hd | add d _ hd | mul d _ hd =>
    obtain rfl := eq_of_reg_setReg_ne hj
    exact .inl ⟨by simp [Instr.op], congrArg some hd⟩
  | push | call | ret => exact .inr (.inl ⟨by simp [Instr.op], eq_of_reg_setReg_ne hj⟩)
  | pop d hd =>
    refine .inr (.inr ⟨rfl, ?_⟩)
    by_cases hjd : j = d
    · exact .inr (congrArg some (hjd ▸ hd))
    · exact .inl (eq_of_reg_setReg_ne fun hsame => hj ((State.reg_setReg_of_ne s.popped d j s.top hjd).trans hsame))
  | _ => exact absurd rfl hj

end

end Sys2Proof.Machine
end

section
/-! SUPPORT AND PROOF. The fault table of 60_exceptions.md R230 in the order of R239, read for one operation at a time,
and each step against it. -/

namespace Sys2Proof.Machine

/-! ### The table, read for one operation -/

/-- The rows on the operand bytes, by format (40_fetch_decode_execute.md R133, R134), on top of the rows after them. -/
def operandRows (s : State) (later : Option FaultReport) : Format → Option FaultReport
  | .n => later
  | .r =>
    if 0xFF < s.pc.toNat + 1 then some ⟨.fetchRange, 0x00⟩
    else if 7 < s.operand1.toNat then some ⟨.badRegister, s.operand1⟩
    else later
  | .ri =>
    if 0xFF < s.pc.toNat + 2 then some ⟨.fetchRange, 0x00⟩
    else if 7 < s.operand1.toNat then some ⟨.badRegister, s.operand1⟩
    else later
  | .rr =>
    if 0xFF < s.pc.toNat + 2 then some ⟨.fetchRange, 0x00⟩
    else if 7 < s.operand1.toNat then some ⟨.badRegister, s.operand1⟩
    else if 7 < s.operand2.toNat then some ⟨.badRegister, s.operand2⟩
    else later

/-- The row on the successor address `pc + len` (R136). -/
def rangeRow (s : State) (len : Nat) : Option FaultReport :=
  if 0xFF < s.pc.toNat + len then some ⟨.pcRange, 0x00⟩ else none

/-- The rows after those on the operand bytes. -/
def meaningRows (s : State) : Op → Option FaultReport
  | .hlt | .jmp => none
  | .ret => if s.sp = 0xFF then some ⟨.stackUnderflow, 0xFF⟩ else none
  | .push | .call => if s.sp = 0x00 then some ⟨.stackOverflow, 0x00⟩ else rangeRow s 2
  | .pop => if s.sp = 0xFF then some ⟨.stackUnderflow, 0xFF⟩ else rangeRow s 2
  | .prn => rangeRow s 2
  | .jeq => if jeqTaken s.fl = true then none else rangeRow s 2
  | .jne => if jneTaken s.fl = true then none else rangeRow s 2
  | .ldi | .add | .mul | .cmp => rangeRow s 3

theorem firstFault_of_unrecognized {s : State} (h : s.opcodeByte ∉ recognizedOpcodes) :
    firstFault s = some ⟨.unknownOpcode, 0x00⟩ := if_pos h

/-- For a recognized opcode the table comes down to the rows of its operation. -/
theorem firstFault_of_opcode {s : State} {o : Op} (h : s.opcodeByte = o.opcode) :
    firstFault s = operandRows s (meaningRows s o) o.format := by
  cases o <;>
    simp [firstFault, h, Op.opcode, recognizedOpcodes, oneByteOpcodes, twoByteOpcodes, threeByteOpcodes, operandRows,
      Op.format, meaningRows, rangeRow]
  case jeq => cases s.fl <;> simp [jeqTaken]
  case jne => cases s.fl <;> simp [jneTaken]

/-- The causes of the table are those that R230 gives a "when": neither none nor ALU_UNSUPPORTED. -/
theorem cause_of_firstFault {s : State} {f : FaultReport} (h : firstFault s = some f) :
    f.cause ≠ .none ∧ f.cause ≠ .aluUnsupported := by
  simp only [firstFault] at h
  split_ifs at h <;> cases h <;> exact ⟨nofun, nofun⟩

/-! ### The rows against a step -/

/-- The step does what the table says: that fault, or none. -/
def Reports (s : State) : Option FaultReport → Prop
  | some f => step s = .next (s.faultStop f.cause f.info)
  | none => SafeStep s

section
variable {s : State}

theorem reports_none_of_step {t : State} (h : step s = .next t) (hst : t.status ≠ .faulted) : Reports s none :=
  ⟨t, h, hst⟩

theorem reports_ite {c : Prop} [Decidable c] {f : FaultReport} {later : Option FaultReport}
    (hrow : c → step s = .next (s.faultStop f.cause f.info)) (hlater : ¬ c → Reports s later) :
    Reports s (if c then some f else later) := by
  split
  next h => exact hrow h
  next h => exact hlater h

theorem reports_rangeRow {len : Nat} {t : State}
    (hrange : 0xFF < s.pc.toNat + len → step s = .next (s.faultStop .pcRange 0x00))
    (hnext : s.pc.toNat + len ≤ 0xFF → step s = .next t) (hst : t.status ≠ .faulted) : Reports s (rangeRow s len) :=
  reports_ite hrange fun h => reports_none_of_step (hnext (by omega)) hst

theorem reports_operandRows_r {later : Option FaultReport} (h : OperandFaultsR s)
    (hlater : ∀ r, s.operand1 = regByte r → s.pc.toNat < 0xFF → Reports s later) :
    Reports s (operandRows s later .r) := by
  obtain ⟨hfetch, hbad⟩ := h
  refine reports_ite (fun hpc => hfetch (by bv_omega)) fun hpc => ?_
  refine reports_ite (hbad (by bv_omega)) fun hop => ?_
  obtain ⟨r, hr⟩ := exists_regByte (Nat.le_of_not_lt hop)
  exact hlater r hr (by omega)

theorem reports_operandRows_ri {later : Option FaultReport} (h : OperandFaultsRI s)
    (hlater : ∀ r, s.operand1 = regByte r → s.pc.toNat < 0xFE → Reports s later) :
    Reports s (operandRows s later .ri) := by
  obtain ⟨hfetch, hbad⟩ := h
  refine reports_ite (fun hpc => hfetch (by omega)) fun hpc => ?_
  refine reports_ite (hbad (by omega)) fun hop => ?_
  obtain ⟨r, hr⟩ := exists_regByte (Nat.le_of_not_lt hop)
  exact hlater r hr (by omega)

theorem reports_operandRows_rr {later : Option FaultReport} (h : OperandFaultsRR s)
    (hlater : ∀ a b, s.operand1 = regByte a → s.operand2 = regByte b → s.pc.toNat < 0xFE → Reports s later) :
    Reports s (operandRows s later .rr) := by
  obtain ⟨⟨hfetch, hbad₁⟩, hbad₂⟩ := h
  refine reports_ite (fun hpc => hfetch (by omega)) fun hpc => ?_
  refine reports_ite (hbad₁ (by omega)) fun hop₁ => ?_
  refine reports_ite (hbad₂ (by omega) (by omega)) fun hop₂ => ?_
  obtain ⟨a, ha⟩ := exists_regByte (Nat.le_of_not_lt hop₁)
  obtain ⟨b, hb⟩ := exists_regByte (Nat.le_of_not_lt hop₂)
  exact hlater a b ha hb (by omega)

/-! ### The rules that several instructions share -/

/-- PUSH, POP and CALL: the row on the stack pointer, then that on the successor address. -/
theorem reports_of_stackRule {full : Byte} {f : FaultReport} {t : RegIndex → State}
    (h : OperandFaultsR s ∧ ∀ r, s.operand1 = regByte r →
      (s.pc ≠ 0xFF → s.sp = full → step s = .next (s.faultStop f.cause f.info)) ∧
      (s.pc = 0xFE → s.sp ≠ full → step s = .next (s.faultStop .pcRange 0x00)) ∧
      (s.pc.toNat < 0xFE → s.sp ≠ full → step s = .next (t r)))
    (hst : ∀ r, (t r).status ≠ .faulted) :
    Reports s (operandRows s (if s.sp = full then some f else rangeRow s 2) .r) := by
  obtain ⟨hoperand, hnamed⟩ := h
  refine reports_operandRows_r hoperand fun r hreg hpc => ?_
  obtain ⟨hfull, hrange, hnext⟩ := hnamed r hreg
  refine reports_ite (hfull (by bv_omega)) fun hsp => ?_
  exact reports_rangeRow (fun h => hrange (by bv_omega) hsp) (fun h => hnext (by omega) hsp) (hst r)

/-- JEQ and JNE: the row on the successor address counts only where the jump is not taken. -/
theorem reports_of_jump {taken : Bool} {jumped continued : RegIndex → State} (hoperand : OperandFaultsR s)
    (h : ∀ r, s.operand1 = regByte r →
      (s.pc ≠ 0xFF → taken = true → step s = .next (jumped r)) ∧
      (s.pc = 0xFE → taken = false → step s = .next (s.faultStop .pcRange 0x00)) ∧
      (s.pc.toNat < 0xFE → taken = false → step s = .next (continued r)))
    (hjumped : ∀ r, (jumped r).status ≠ .faulted) (hcontinued : ∀ r, (continued r).status ≠ .faulted) :
    Reports s (operandRows s (if taken = true then none else rangeRow s 2) .r) := by
  refine reports_operandRows_r hoperand fun r hreg hpc => ?_
  obtain ⟨hjump, hrange, hnext⟩ := h r hreg
  cases taken with
  | true => exact reports_none_of_step (hjump (by bv_omega) rfl) (hjumped r)
  | false =>
    exact reports_rangeRow (fun h => hrange (by bv_omega) rfl) (fun h => hnext (by omega) rfl) (hcontinued r)

/-- ADD, MUL and CMP. -/
theorem reports_of_twoRegisters {t : RegIndex → RegIndex → State}
    (h : OperandFaultsRR s ∧ ∀ a b, s.operand1 = regByte a → s.operand2 = regByte b →
      (s.pc = 0xFD → step s = .next (s.faultStop .pcRange 0x00)) ∧ (s.pc.toNat < 0xFD → step s = .next (t a b)))
    (hst : ∀ a b, (t a b).status ≠ .faulted) : Reports s (operandRows s (rangeRow s 3) .rr) := by
  obtain ⟨hoperand, hnamed⟩ := h
  refine reports_operandRows_rr hoperand fun a b ha hb hpc => ?_
  obtain ⟨hrange, hnext⟩ := hnamed a b ha hb
  exact reports_rangeRow (fun h => hrange (by bv_omega)) (fun h => hnext (by omega)) (hst a b)

end

/-! ### Every step against the table -/

theorem reports_of_opcode {s : State} {o : Op} (hr : s.status = .running) (hop : s.opcodeByte = o.opcode) :
    Reports s (operandRows s (meaningRows s o) o.format) := by
  have hrunning : s.status ≠ .faulted := by simp [hr]
  cases o with
  | hlt => exact reports_none_of_step (hltStopsTheCore s hr hop) nofun
  | ret =>
    obtain ⟨hfull, hnext⟩ := retJumpsToThePoppedByte s hr hop
    exact reports_ite hfull fun hsp => reports_none_of_step (hnext hsp) hrunning
  | push => exact reports_of_stackRule (pushStoresBelowTheStackPointer s hr hop) fun _ => hrunning
  | pop => exact reports_of_stackRule (popLoadsTheTopOfStack s hr hop) fun _ => hrunning
  | call => exact reports_of_stackRule (callPushesItsReturnAddress s hr hop) fun _ => hrunning
  | prn =>
    obtain ⟨hoperand, hnamed⟩ := prnEmitsItsRegister s hr hop
    refine reports_operandRows_r hoperand fun r hreg hpc => ?_
    obtain ⟨hrange, hnext⟩ := hnamed r hreg
    exact reports_rangeRow (fun h => hrange (by bv_omega)) (fun h => hnext (by omega)) hrunning
  | jmp =>
    obtain ⟨hoperand, hnamed⟩ := jmpGoesToItsRegister s hr hop
    exact reports_operandRows_r hoperand fun r hreg hpc =>
      reports_none_of_step (hnamed r hreg (by bv_omega)) hrunning
  | jeq =>
    exact reports_of_jump (jeqJumpsWhenEqual s hr hop).1
      (fun _ hreg => step_of_exec_eq_jumpIf (o := .jeq) hr hop rfl rfl hreg rfl) (fun _ => hrunning) fun _ => hrunning
  | jne =>
    exact reports_of_jump (jneJumpsWhenLessOrGreater s hr hop).1
      (fun _ hreg => step_of_exec_eq_jumpIf (o := .jne) hr hop rfl rfl hreg rfl) (fun _ => hrunning) fun _ => hrunning
  | ldi =>
    obtain ⟨hoperand, hnamed⟩ := ldiLoadsItsImmediate s hr hop
    refine reports_operandRows_ri hoperand fun r hreg hpc => ?_
    obtain ⟨hrange, hnext⟩ := hnamed r hreg
    exact reports_rangeRow (fun h => hrange (by bv_omega)) (fun h => hnext (by omega)) hrunning
  | add =>
    exact reports_of_twoRegisters
      (step_of_twoRegisters (o := .add) hr hop rfl rfl (aluWrite_eq_twoRegisters aluAdd)) fun _ _ => hrunning
  | mul =>
    exact reports_of_twoRegisters
      (step_of_twoRegisters (o := .mul) hr hop rfl rfl (aluWrite_eq_twoRegisters aluMul)) fun _ _ => hrunning
  | cmp =>
    exact reports_of_twoRegisters (step_of_twoRegisters (o := .cmp) hr hop rfl rfl execCmp_eq_twoRegisters)
      fun _ _ => hrunning

theorem reports_firstFault {s : State} (hr : s.status = .running) : Reports s (firstFault s) := by
  cases hd : dispatch s.opcodeByte with
  | none =>
    rw [firstFault_of_unrecognized (dispatch_eq_none_iff_not_recognized.mp hd)]
    exact step_of_unrecognized hr hd
  | some o =>
    have hop := opcode_of_dispatch hd
    rw [firstFault_of_opcode hop]
    exact reports_of_opcode hr hop

/-- Settles O10: the table comes down to a few rows for each operation, and each instruction's rule meets its rows. -/
theorem stepReportsTheFirstFaultThatApplies : Obligations.StepReportsTheFirstFaultThatApplies := by
  intro s hr
  have h := reports_firstFault hr
  revert h
  cases firstFault s <;> exact id

/-- A step that ends in FAULTED is the stop for the first fault of the table. -/
theorem faultStop_of_step_faulted {s t : State} (h : step s = .next t) (hst : t.status = .faulted) :
    ∃ f, firstFault s = some f ∧ t = s.faultStop f.cause f.info := by
  have hreports := reports_firstFault (running_of_step h)
  cases hf : firstFault s with
  | none =>
    rw [hf] at hreports
    obtain ⟨u, hu, hsafe⟩ := hreports
    cases h.symm.trans hu
    exact absurd hst hsafe
  | some f =>
    rw [hf] at hreports
    cases h.symm.trans hreports
    exact ⟨f, rfl, rfl⟩

/-- Settles O11: the stop is that of the first fault of the table, which names neither of the two causes. -/
theorem faultsArePrecise : Obligations.FaultsArePrecise := by
  intro s t h hst
  obtain ⟨f, hf, rfl⟩ := faultStop_of_step_faulted h hst
  exact ⟨f.cause, f.info, rfl, cause_of_firstFault hf⟩

end Sys2Proof.Machine
end

section
/-! SUPPORT AND PROOF. All that a step can do, with the instruction's first operand at the address after the pc; and
from it the whole-machine rules: what each ending leaves in the pc, and who may write what. -/

namespace Sys2Proof.Machine

/-! ### All that a step can do -/

theorem Memory.head?_bytesFrom {m : Memory} {a n : Nat} {b : Byte} (h : (m.bytesFrom a n).head? = some b) :
    b = m.read (BitVec.ofNat 8 a) := by
  cases n with
  | zero => cases h
  | succ n =>
    by_cases ha : a ≤ 0xFF
    · rw [bytesFrom_succ ha] at h
      cases h
      rfl
    · rw [bytesFrom_of_gt (by omega)] at h
      cases h

/-- The first operand byte of the fetched instruction stands after the pc (40_fetch_decode_execute.md R133). -/
theorem operand1_of_fetched {s : State} {i : Instr} (h : fetchInstr s = .ok i) {b : Byte}
    (hb : i.operands.head? = some b) : s.operand1 = b := by
  have hop : dispatch s.opcodeByte = some i.op := by rw [opcodeByte_of_fetched h, dispatch_opcode]
  rw [fetchInstr_of_dispatch hop] at h
  split at h
  · cases h
  next found ha =>
    cases h
    have hbytes : (s.mem.bytesFrom (s.pc.toNat + 1) found.1.op.format.operandCount).head? = some b := by
      rw [eq_operands_append_of_assemble ha, List.head?_append, hb, Option.some_or]
    rw [Memory.head?_bytesFrom hbytes, read_ofNat_add]
    rfl

/-- A step stops with a fault, or completes the instruction at the pc, after IR is written. -/
theorem step_cases_completes {s t : State} (h : step s = .next t) :
    (∃ f : FaultReport, t = s.faultStop f.cause f.info) ∨
    ∃ i, s.opcodeByte = i.op.opcode ∧ (∀ b, i.operands.head? = some b → s.operand1 = b) ∧
      Completes (s.setIr s.opcodeByte) i t := by
  obtain ⟨-, ⟨f, -, rfl⟩ | ⟨i, hf, he⟩⟩ := step_cases h
  · exact .inl ⟨f, rfl⟩
  · obtain hc | ⟨f, rfl⟩ := exec_cases he
    · exact .inr ⟨i, opcodeByte_of_fetched hf, fun _ => operand1_of_fetched hf, hc⟩
    · exact .inl ⟨f, rfl⟩

theorem completes_of_step {s t : State} (h : step s = .next t) (hst : t.status ≠ .faulted) :
    ∃ i, s.opcodeByte = i.op.opcode ∧ (∀ b, i.operands.head? = some b → s.operand1 = b) ∧
      Completes (s.setIr s.opcodeByte) i t := by
  obtain ⟨f, rfl⟩ | hc := step_cases_completes h
  · exact absurd rfl hst
  · exact hc

/-- Every step leaves in IR the byte it fetched (10_state.md R46). -/
theorem ir_of_step {s t : State} (h : step s = .next t) : t.ir = s.opcodeByte := by
  obtain ⟨f, rfl⟩ | ⟨i, -, -, hc⟩ := step_cases_completes h
  · rfl
  · exact hc.ir

/-- A list of opcode bytes, as the statements write it, as a list of operations. -/
theorem opcode_mem_map_iff {o : Op} {ops : List Op} : o.opcode ∈ ops.map Op.opcode ↔ o ∈ ops :=
  List.mem_map_of_injective opcode_injective

/-! ### HALTED -/

/-- Settles O13: HLT always halts, and every other instruction that completes keeps the status RUNNING. -/
theorem onlyHltHalts : Obligations.OnlyHltHalts := by
  intro s t h
  have hr := running_of_step h
  have hhalts : s.opcodeByte = 0x01 → t.status = .halted := by
    intro hop
    cases h.symm.trans (hltStopsTheCore s hr hop)
    rfl
  obtain ⟨f, rfl⟩ | ⟨i, hop, -, hc⟩ := step_cases_completes h
  · exact ⟨nofun, nofun, hhalts⟩
  · by_cases hi : i.op = .hlt
    · have hhlt : s.opcodeByte = 0x01 := by rw [hop, hi]; rfl
      exact ⟨by simp [hhalts hhlt], fun _ => hhlt, hhalts⟩
    · have hst : t.status = .running := (hc.status_of_ne_hlt hi).trans hr
      exact ⟨by simp [hst], by simp [hst], hhalts⟩

/-! ### The pc -/

section
variable {s t : State} {i : Instr}

/-- A Continue goes on by the length of the instruction, and never wraps (10_state.md R42). -/
theorem Completes.pc_of_continue (h : Completes s i t)
    (hi : i.op ∈ [Op.ldi, .prn, .push, .pop, .add, .mul, .cmp]) : t.pc.toNat = s.pc.toNat + lengthOf i.op.opcode := by
  rw [lengthOf_opcode]
  cases h with
  | push _ _ _ hpc | pop _ _ _ hpc | prn _ _ hpc => exact BitVec.toNat_add_of_lt (y := 2) (Nat.lt_succ_of_le hpc)
  | ldi _ _ hpc | add _ _ _ _ hpc | mul _ _ _ _ hpc | cmp _ _ _ _ hpc =>
    exact BitVec.toNat_add_of_lt (y := 3) (Nat.lt_succ_of_le hpc)
  | _ => simp [Instr.op] at hi

theorem Completes.pc_of_ret (h : Completes s i t) (hi : i.op = .ret) : t.pc = s.top := by
  cases h with
  | ret => rfl
  | _ => cases hi

theorem Completes.pc_of_call_or_jmp (h : Completes s i t) (hi : i.op ∈ [Op.call, .jmp]) :
    ∃ d, i.operands.head? = some (regByte d) ∧ t.pc = s.reg d := by
  cases h with
  | call d hd | jmp d hd => exact ⟨d, congrArg some hd, rfl⟩
  | _ => simp [Instr.op] at hi

theorem Completes.pc_of_jeq (h : Completes s i t) (hi : i.op = .jeq) :
    ∃ d, i.operands.head? = some (regByte d) ∧
      if s.fl = .equal then t.pc = s.reg d else t.pc.toNat = s.pc.toNat + 2 := by
  cases h with
  | jeqTaken d hd hf =>
    refine ⟨d, congrArg some hd, ?_⟩
    rw [if_pos (jeqTaken_eq_true_iff.mp hf)]
    rfl
  | jeqNotTaken d hd hf hpc =>
    refine ⟨d, congrArg some hd, ?_⟩
    rw [if_neg (jeqTaken_eq_false_iff.mp hf)]
    exact BitVec.toNat_add_of_lt (y := 2) (Nat.lt_succ_of_le hpc)
  | _ => cases hi

theorem Completes.pc_of_jne (h : Completes s i t) (hi : i.op = .jne) :
    ∃ d, i.operands.head? = some (regByte d) ∧
      if s.fl = .lessThan ∨ s.fl = .greaterThan then t.pc = s.reg d else t.pc.toNat = s.pc.toNat + 2 := by
  simp only [← jneTaken_eq_true_iff]
  cases h with
  | jneTaken d hd hf =>
    refine ⟨d, congrArg some hd, ?_⟩
    rw [if_pos hf]
    rfl
  | jneNotTaken d hd hf hpc =>
    refine ⟨d, congrArg some hd, ?_⟩
    rw [if_neg (by simp [hf])]
    exact BitVec.toNat_add_of_lt (y := 2) (Nat.lt_succ_of_le hpc)
  | _ => cases hi

end

/-- Settles O12: HLT's rule gives the pc of a halt and the precise stop that of a fault; what RUNNING leaves is a
completed instruction, and its operation says which. -/
theorem everyEndingLeavesItsPc : Obligations.EveryEndingLeavesItsPc := by
  intro s t h
  refine ⟨fun hst => ?_, fun hst => ?_, fun hst => ?_⟩
  · have hop := (onlyHltHalts s t h).2.mp hst
    cases h.symm.trans (hltStopsTheCore s (running_of_step h) hop)
    simp
  · obtain ⟨f, -, rfl⟩ := faultStop_of_step_faulted h hst
    rfl
  · obtain ⟨i, hop, hfirst, hc⟩ := completes_of_step h (by simp [hst])
    have hnamed : ∀ {r d}, s.operand1 = regByte r → i.operands.head? = some (regByte d) → d = r := fun hreg hd =>
      regByte_inj.mp ((hfirst _ hd).symm.trans hreg)
    rw [hop]
    refine ⟨fun hi => ?_, fun hi => ?_, fun r hreg => ⟨fun hi => ?_, fun hi => ?_, fun hi => ?_⟩⟩
    · exact hc.pc_of_continue
        (opcode_mem_map_iff (ops := [Op.ldi, .prn, .push, .pop, .add, .mul, .cmp]).mp hi)
    · exact hc.pc_of_ret (opcode_injective hi)
    · obtain ⟨d, hd, hpc⟩ := hc.pc_of_call_or_jmp (opcode_mem_map_iff (ops := [Op.call, .jmp]).mp hi)
      exact hnamed hreg hd ▸ hpc
    · obtain ⟨d, hd, hpc⟩ := hc.pc_of_jeq (opcode_injective hi)
      exact hnamed hreg hd ▸ hpc
    · obtain ⟨d, hd, hpc⟩ := hc.pc_of_jne (opcode_injective hi)
      exact hnamed hreg hd ▸ hpc

/-! ### Memory and registers -/

/-- Settles O16: a fault stores nothing, and a completed instruction stores by the push step or not at all. -/
theorem onlyPushAndCallStore : Obligations.OnlyPushAndCallStore := by
  intro s t a h hne
  obtain ⟨f, rfl⟩ | ⟨i, hop, -, hc⟩ := step_cases_completes h
  · exact absurd rfl hne
  · obtain hmem | ⟨hi, v, hmem⟩ := hc.mem
    · exact absurd (congrArg (Memory.read · a) hmem) hne
    · refine ⟨hop ▸ (opcode_mem_map_iff (ops := [Op.push, .call])).mpr hi, ?_⟩
      by_contra ha
      exact hne (hmem ▸ Memory.read_write_of_ne ha s.mem v)

/-- Settles O17: a fault writes no register, and a completed instruction only those the table gives it. -/
theorem onlyListedRegistersAreWritten : Obligations.OnlyListedRegistersAreWritten := by
  intro s t r h hne
  obtain ⟨f, rfl⟩ | ⟨i, hop, hfirst, hc⟩ := step_cases_completes h
  · exact absurd rfl hne
  · rw [hop]
    obtain ⟨hi, hr⟩ | ⟨hi, hr⟩ | ⟨hi, hr⟩ := hc.changed_reg hne
    · exact .inl ⟨(opcode_mem_map_iff (ops := [Op.ldi, .add, .mul])).mpr hi, hfirst _ hr⟩
    · exact .inr (.inl ⟨(opcode_mem_map_iff (ops := [Op.push, .call, .ret])).mpr hi, hr⟩)
    · exact .inr (.inr ⟨congrArg Op.opcode hi, hr.imp_right (hfirst _)⟩)

theorem Completes.mem_of_push {s t : State} {i : Instr} (h : Completes s i t) (hi : i.op = .push) :
    ∃ d, i.operands.head? = some (regByte d) ∧ t.mem = s.mem.write s.pushAddress (s.reg d) := by
  cases h with
  | push d hd => exact ⟨d, congrArg some hd, rfl⟩
  | _ => cases hi

theorem Completes.mem_of_call {s t : State} {i : Instr} (h : Completes s i t) (hi : i.op = .call) :
    t.mem = s.mem.write s.pushAddress (s.pc + 2) := by
  cases h with
  | call => rfl
  | _ => cases hi

/-- Settles O18: the second step's IR is the byte its fetch read, at the address where the first has just stored. -/
theorem nextFetchSeesThePushedByte : Obligations.NextFetchSeesThePushedByte := by
  intro s t u r hwf h hpc hnext hreg
  have hir : u.ir = t.mem.read (s.sp - 1) := hpc ▸ ir_of_step hnext
  obtain ⟨i, hop, hfirst, hc⟩ := completes_of_step h (by simp [running_of_step hnext])
  rw [hir, hop]
  constructor
  · intro hi
    obtain ⟨d, hd, hmem⟩ := hc.mem_of_push (opcode_injective hi)
    obtain rfl := regByte_inj.mp ((hfirst _ hd).symm.trans hreg)
    rw [hmem]
    exact Memory.read_write_same hwf (s.sp - 1) (s.reg d)
  · intro hi
    rw [hc.mem_of_call (opcode_injective hi)]
    exact Memory.read_write_same hwf (s.sp - 1) (s.pc + 2)

end Sys2Proof.Machine
end

section
/-! SUPPORT AND PROOF. The completion statements, from what each instruction writes when it does not fault. -/

namespace Sys2Proof.Machine

/-- Settles O32: the three complete with the successor three further, ADD and MUL with the ALU's result. -/
theorem ldiAddAndMulComplete : Obligations.LdiAddAndMulComplete := by
  intro s ra rb imm hpc
  simp only [← aluAdd_eq_mod, ← aluMul_eq_mod]
  exact ⟨(Completes.ldi ra rfl hpc).exec_eq, (Completes.add ra rb rfl rfl hpc).exec_eq,
    (Completes.mul ra rb rfl rfl hpc).exec_eq⟩

/-- The three orders of CMP, with the equal one tested second. -/
theorem compareFlag_eq_ite (va vb : Byte) :
    compareFlag va vb =
      if va.toNat < vb.toNat then .lessThan else if va.toNat = vb.toNat then .equal else .greaterThan := by
  obtain h | h | h := Nat.lt_trichotomy va.toNat vb.toNat
  · rw [compareFlag_of_lt h, if_pos h]
  · rw [compareFlag_of_eq h, if_neg h.not_lt, if_pos h]
  · rw [compareFlag_of_gt h, if_neg h.not_gt, if_neg h.ne']

/-- Settles O33: CMP completes with the flag of its two values. -/
theorem cmpCompletes : Obligations.CmpCompletes := by
  intro s ra rb hpc
  rw [← compareFlag_eq_ite]
  exact (Completes.cmp ra rb rfl rfl hpc).exec_eq

/-- Settles O34: PRN completes with its register's value emitted. -/
theorem prnCompletes : Obligations.PrnCompletes := fun _ r hpc => (Completes.prn r rfl hpc).exec_eq

/-- Settles O35: with room on the stack both complete by the push step. -/
theorem pushAndCallComplete : Obligations.PushAndCallComplete := fun _ r hsp hpc =>
  ⟨(Completes.push r rfl hsp hpc).exec_eq, (Completes.call r rfl hsp hpc).exec_eq⟩

/-- Settles O36: with a byte to pop both complete by the pop step. -/
theorem popAndRetComplete : Obligations.PopAndRetComplete := fun _ r hsp =>
  ⟨fun hpc => (Completes.pop r rfl hsp hpc).exec_eq, (Completes.ret hsp).exec_eq⟩

/-- Settles O37: each entry of the table is the taken or the untaken end of its jump. -/
theorem conditionalJumpsFollowTheFlagTable : Obligations.ConditionalJumpsFollowTheFlagTable := by
  intro s r
  have hjeq (hf : s.fl ≠ .equal) (hpc : s.pc.toNat + 2 ≤ 0xFF) :=
    (Completes.jeqNotTaken r rfl (jeqTaken_eq_false_iff.mpr hf) hpc).exec_eq
  have hjne (hf : s.fl = .equal ∨ s.fl = .unset) (hpc : s.pc.toNat + 2 ≤ 0xFF) :=
    (Completes.jneNotTaken r rfl (jneTaken_eq_false_iff.mpr hf) hpc).exec_eq
  exact ⟨fun hf => (Completes.jeqTaken r rfl (jeqTaken_eq_true_iff.mpr hf)).exec_eq,
    fun hf => (Completes.jneTaken r rfl (jneTaken_eq_true_iff.mpr (.inl hf))).exec_eq,
    fun hf => (Completes.jneTaken r rfl (jneTaken_eq_true_iff.mpr (.inr hf))).exec_eq,
    fun hpc => ⟨fun hf => hjeq (by simp [hf]) hpc, fun hf => hjeq (by simp [hf]) hpc,
      fun hf => hjeq (by simp [hf]) hpc, fun hf => hjne (.inl hf) hpc, fun hf => hjne (.inr hf) hpc⟩⟩

/-- Settles O38: neither asks for a successor address. -/
theorem jmpAndHltAlwaysComplete : Obligations.JmpAndHltAlwaysComplete := by
  intro s r
  rw [ofNat_mod_256]
  exact ⟨(Completes.jmp r rfl).exec_eq, rfl⟩

end Sys2Proof.Machine
end

section
/-! SUPPORT AND PROOF. The frames: what a meaning leaves unchanged on every operand byte, completed or stopped with a
fault. -/

namespace Sys2Proof.Machine

section
variable {s t : State} {i : Instr}

theorem exec_keeps_ir (h : exec i s = .next t) : t.ir = s.ir := by
  obtain hc | ⟨f, rfl⟩ := exec_cases h
  · exact hc.ir
  · rfl

theorem exec_keeps_memory (hpush : i.op ≠ .push) (hcall : i.op ≠ .call) (h : exec i s = .next t) :
    SameMemory s t := by
  intro a
  obtain hc | ⟨f, rfl⟩ := exec_cases h
  · obtain hmem | ⟨hi, -⟩ := hc.mem
    · rw [hmem]
    · simp [hpush, hcall] at hi
  · rfl

/-- Whatever the instruction, a byte away from the push address stays (20_memory.md R72). -/
theorem exec_read_of_ne_pushAddress (h : exec i s = .next t) {a : Byte} (ha : a ≠ s.pushAddress) :
    t.mem.read a = s.mem.read a := by
  obtain hc | ⟨f, rfl⟩ := exec_cases h
  · obtain hmem | ⟨-, v, hmem⟩ := hc.mem
    · rw [hmem]
    · rw [hmem, Memory.read_write_of_ne ha]
  · rfl

/-- A register that a meaning changes is one that the table of 10_state.md R33 gives the instruction. -/
theorem exec_changed_reg (h : exec i s = .next t) {j : RegIndex} (hj : t.reg j ≠ s.reg j) :
    (i.op ∈ [Op.ldi, .add, .mul] ∧ i.operands.head? = some (regByte j)) ∨
    (i.op ∈ [Op.push, .call, .ret] ∧ j = 7) ∨
    (i.op = .pop ∧ (j = 7 ∨ i.operands.head? = some (regByte j))) := by
  obtain hc | ⟨f, rfl⟩ := exec_cases h
  · exact hc.changed_reg hj
  · exact absurd rfl hj

theorem exec_sameControlUnlessFault (hi : i.op ≠ .hlt) (h : exec i s = .next t) : SameControlUnlessFault s t := by
  obtain hc | ⟨f, rfl⟩ := exec_cases h
  · exact .inl ⟨hc.status_of_ne_hlt hi, hc.record⟩
  · exact .inr ⟨rfl, rfl, rfl, rfl, fun _ _ => rfl, fun _ => rfl⟩

/-- A register is kept when a change to it would make it one of those that may change. -/
theorem sameRegsExcept_of_changed {dests : List RegIndex} (h : ∀ j, t.reg j ≠ s.reg j → j ∈ dests) :
    SameRegsExcept dests s t := fun j hj => by
  by_contra hne
  exact hj (h j hne)

/-- A byte above 7 is no register's. -/
theorem ne_regByte_of_gt {b : Byte} (h : 7 < b.toNat) (j : RegIndex) : b ≠ regByte j := by
  rintro rfl
  rw [regByte_toNat] at h
  omega

end

/-- The pieces that no writer of stack, FL, output or status writes. -/
theorem exec_frame_of_op_ne {s t : State} {i : Instr} (h : exec i s = .next t)
    (hi : i.op ∉ [Op.push, .call, .cmp, .prn, .hlt]) :
    t.fl = s.fl ∧ SameMemory s t ∧ t.out = s.out ∧ t.ir = s.ir ∧ SameControlUnlessFault s t := by
  simp only [List.mem_cons, List.not_mem_nil, or_false, not_or] at hi
  obtain ⟨hpush, hcall, hcmp, hprn, hhlt⟩ := hi
  exact ⟨exec_keeps_fl hcmp h, exec_keeps_memory hpush hcall h, exec_keeps_out hprn h, exec_keeps_ir h,
    exec_sameControlUnlessFault hhlt h⟩

/-! ### LDI, ADD and MUL -/

/-- Settles O39: the register that changes is the first operand's, and the three write no other piece. -/
theorem ldiAddAndMulFrame : Obligations.LdiAddAndMulFrame := by
  intro s t ra b dest h
  have hchanged : ∀ j, t.reg j ≠ s.reg j → ra = regByte j := by
    intro j hj
    obtain h | h | h := h <;> simpa [Instr.op, Instr.operands] using exec_changed_reg h hj
  refine ⟨fun hra => sameRegsExcept_of_changed fun j hj => ?_, fun hra => sameRegsExcept_of_changed fun j hj => ?_, ?_⟩
  · have hsame : regByte dest = regByte j := hra ▸ hchanged j hj
    exact List.mem_singleton.mpr (regByte_inj.mp hsame).symm
  · exact absurd (hchanged j hj) (ne_regByte_of_gt hra j)
  · obtain h | h | h := h <;> exact exec_frame_of_op_ne h (by simp [Instr.op])

/-! ### CMP, PRN and the jumps -/

/-- Settles O40: no register and no byte is written by any of the five, FL by CMP alone and the output by PRN alone. -/
theorem cmpPrnAndJumpsFrame : Obligations.CmpPrnAndJumpsFrame := by
  intro s t i r b hmem h
  have hop : i.op ∈ [Op.cmp, .prn, .jmp, .jeq, .jne] := List.mem_map_of_mem (f := Instr.op) hmem
  have hne : ∀ o, o ∉ [Op.cmp, .prn, .jmp, .jeq, .jne] → i.op ≠ o := fun o ho hio => ho (hio ▸ hop)
  have hnodup : ([Instr.cmp r b, .prn r, .jmp r, .jeq r, .jne r].map Instr.op).Nodup :=
    show [Op.cmp, .prn, .jmp, .jeq, .jne].Nodup by decide
  have hinj := fun j hj => List.inj_on_of_nodup_map hnodup hmem (y := j) hj
  refine ⟨sameRegsExcept_of_changed fun j hj => ?_,
    exec_keeps_memory (hne .push (by decide)) (hne .call (by decide)) h, exec_keeps_ir h,
    exec_sameControlUnlessFault (hne .hlt (by decide)) h,
    fun hcmp => exec_keeps_fl (mt (hinj (.cmp r b) (by simp)) hcmp) h,
    fun hprn => exec_keeps_out (mt (hinj (.prn r) (by simp)) hprn) h⟩
  obtain ⟨hw, -⟩ | ⟨hw, -⟩ | ⟨hw, -⟩ := exec_changed_reg h hj <;> simp [hne] at hw

/-! ### PUSH and CALL, POP and RET, HLT -/

/-- Settles O41: the register that changes is the stack pointer, and the byte that changes is at the push address. -/
theorem pushAndCallFrame : Obligations.PushAndCallFrame := by
  intro s t r h
  have hframe : ∀ i : Instr, i.op ∈ [Op.push, .call] → exec i s = .next t →
      SameRegsExcept [7] s t ∧ (∀ a : Byte, a ≠ s.pushAddress → t.mem.read a = s.mem.read a) ∧
        t.fl = s.fl ∧ t.out = s.out ∧ t.ir = s.ir ∧ SameControlUnlessFault s t := by
    intro i hi h
    have hne : ∀ o, o ∉ [Op.push, .call] → i.op ≠ o := fun o ho hio => ho (hio ▸ hi)
    refine ⟨sameRegsExcept_of_changed fun j hj => ?_, fun a => exec_read_of_ne_pushAddress h,
      exec_keeps_fl (hne .cmp (by decide)) h, exec_keeps_out (hne .prn (by decide)) h, exec_keeps_ir h,
      exec_sameControlUnlessFault (hne .hlt (by decide)) h⟩
    obtain ⟨hw, -⟩ | ⟨-, hj7⟩ | ⟨hw, -⟩ := exec_changed_reg h hj
    · simp [hne] at hw
    · exact List.mem_singleton.mpr hj7
    · simp [hne] at hw
  obtain h | h := h
  · exact hframe (.push r) (by simp [Instr.op]) h
  · exact hframe (.call r) (by simp [Instr.op]) h

/-- Settles O42: the register that changes is the stack pointer or POP's operand, and the two write no other piece. -/
theorem popAndRetFrame : Obligations.PopAndRetFrame := by
  intro s t r dest
  refine ⟨fun h => ?_, fun h => sameRegsExcept_of_changed fun j hj => ?_, fun h => ?_⟩
  · have hchanged : ∀ j, t.reg j ≠ s.reg j → j = 7 ∨ r = regByte j := fun j hj => by
      simpa [Instr.op, Instr.operands] using exec_changed_reg h hj
    refine ⟨fun hr => sameRegsExcept_of_changed fun j hj => ?_, fun hr => ?_⟩
    · simpa [hr, eq_comm] using hchanged j hj
    · cases (perform_regOperand_of_ge hr s _).symm.trans h
      exact fun _ _ => rfl
  · simpa [Instr.op] using exec_changed_reg h hj
  · obtain h | h := h
    all_goals
      obtain ⟨hfl, hmem, hrest⟩ := exec_frame_of_op_ne h (by simp [Instr.op])
      exact ⟨hmem, hfl, hrest⟩

/-- Settles O43: HLT's one end writes the status and the pc. -/
theorem hltFrame : Obligations.HltFrame := by
  intro s t h
  cases h
  exact ⟨fun _ _ => rfl, fun _ => rfl, rfl, rfl, rfl, rfl, rfl, rfl, rfl⟩

end Sys2Proof.Machine
end

section
/-! SUPPORT AND PROOF. Laws of two instructions (42_stack.md R174, 43_control_transfer.md R187) and the algebra of the
ALU (44_alu.md R205). -/

namespace Sys2Proof.Machine

/-! ### PUSH and POP, CALL and RET -/

/-- The byte just pushed is on top of the stack. -/
theorem State.top_push {s : State} (hwf : s.mem.wf = true) (v : Byte) : (s.push v).top = v := by
  rw [State.top, State.push_sp]
  exact Memory.read_write_same hwf s.pushAddress v

/-- Settles O44: POP finds on top what PUSH stored, and writes its register after the pointer. -/
theorem pushThenPopIsARoundTrip : Obligations.PushThenPopIsARoundTrip := by
  intro s t u i j hwf hpush ht hpop hu
  cases completes_of_exec hpush ht with | push d hd =>
  cases completes_of_exec hpop hu with | pop e he =>
  obtain rfl := regByte_inj.mp hd
  obtain rfl := regByte_inj.mp he
  have hvalue : ((s.writePush i (s.pc + 2)).writePop j ((s.writePush i (s.pc + 2)).pc + 2)).reg j = s.reg i := by
    rw [State.writePop, State.setPc_reg, State.reg_setReg_same]
    exact State.top_push hwf (s.reg i)
  refine ⟨hvalue, fun hj => ?_, fun hj => hj ▸ hvalue⟩
  calc _
    _ = (s.writePush i (s.pc + 2)).popped.sp := State.reg_setReg_of_ne _ j 7 _ hj.symm
    _ = (s.push (s.reg i)).sp + 1 := State.popped_sp _
    _ = s.sp := by rw [State.push_sp, BitVec.sub_add_cancel]

/-- Settles O45: the byte on top is the return address, which fits in a byte, and the pointer is one below the old one,
so not 0xFF. -/
theorem retReturnsPastTheCall : Obligations.RetReturnsPastTheCall := by
  intro s t u r hwf hcall ht
  cases completes_of_exec hcall ht with | call d hd hsp hpc =>
  obtain rfl := regByte_inj.mp hd
  have htop : (s.writeCall r (s.pc + 2)).mem.read (s.writeCall r (s.pc + 2)).sp = s.pc + 2 :=
    State.top_push hwf (s.pc + 2)
  refine ⟨rfl, htop, fun hptr hbyte => ?_⟩
  have hptr' : u.sp = s.sp - 1 := hptr.trans (State.push_sp s (s.pc + 2))
  have hroom : u.sp ≠ 0xFF := by
    rw [hptr']
    bv_omega
  refine ⟨_, execRet_of_room hroom, ?_, ?_, rfl⟩
  · rw [State.setPc_pc, State.top, hbyte, htop]
    exact BitVec.toNat_add_of_lt (y := 2) (Nat.lt_succ_of_le hpc)
  · rw [State.setPc_sp, State.popped_sp, hptr', BitVec.sub_add_cancel]

/-! ### The ALU -/

theorem aluAdd_eq_add (a b : Byte) : aluAdd a b = a + b := by
  rw [aluAdd, BitVec.ofNat_add, BitVec.ofNat_toNat, BitVec.ofNat_toNat, BitVec.setWidth_eq, BitVec.setWidth_eq]

theorem aluMul_eq_mul (a b : Byte) : aluMul a b = a * b := by
  rw [aluMul, BitVec.ofNat_mul, BitVec.ofNat_toNat, BitVec.ofNat_toNat, BitVec.setWidth_eq, BitVec.setWidth_eq]

theorem compareFlag_eq_lessThan_iff {a b : Byte} : compareFlag a b = .lessThan ↔ a.toNat < b.toNat := by
  refine ⟨fun h => ?_, compareFlag_of_lt⟩
  by_contra hlt
  rw [compareFlag, if_neg hlt] at h
  split at h <;> cases h

theorem compareFlag_eq_greaterThan_iff {a b : Byte} : compareFlag a b = .greaterThan ↔ b.toNat < a.toNat := by
  refine ⟨fun h => ?_, compareFlag_of_gt⟩
  by_contra hlt
  rw [compareFlag, if_neg hlt] at h
  split at h <;> cases h

/-- Settles O46: ADD and MUL are the operations of the ring of bytes, and CMP is the order of the values. -/
theorem aluObeysModularAlgebra : Obligations.AluObeysModularAlgebra := by
  intro a b c
  simp only [aluAdd_eq_add, aluMul_eq_mul, compareFlag_eq_lessThan_iff, compareFlag_eq_greaterThan_iff]
  exact ⟨add_comm a b, mul_comm a b, add_assoc a b c, mul_assoc a b c, add_zero a, mul_one a, BitVec.toNat_add a 0xFF,
    (sub_eq_add_neg a 1).symm, trivial⟩

end Sys2Proof.Machine
end

section
/-! SUPPORT AND PROOF. Canonical memories with equal reads are equal (20_memory.md R70). -/

namespace Sys2Proof.Machine.Memory

theorem wfFrom_cons_iff {lo a : Nat} {v : Byte} {rest : Memory} :
    wfFrom lo ((a, v) :: rest) = true ↔
      lo ≤ a ∧ a < Config.memSize ∧ v ≠ Config.unlistedByte ∧ wfFrom (a + 1) rest = true := by
  simp [wfFrom, and_assoc]

theorem wfFrom_head {lo a : Nat} {v : Byte} {rest : Memory} (h : wfFrom lo ((a, v) :: rest) = true) :
    wfFrom a ((a, v) :: rest) = true := by
  obtain ⟨-, hrest⟩ := wfFrom_cons_iff.mp h
  exact wfFrom_cons_iff.mpr ⟨le_refl a, hrest⟩

theorem lookup_head (a : Nat) (v : Byte) (rest : Memory) : lookup ((a, v) :: rest) a = v := if_pos rfl

theorem lookup_tail {a c : Nat} (h : a ≠ c) (v : Byte) (rest : Memory) : lookup ((a, v) :: rest) c = lookup rest c :=
  if_neg h

/-- A canonical list that starts above the first key of another reads differently there. -/
theorem lookup_ne_of_head_lt {lo lo' a : Nat} {v : Byte} {m n : Memory} (hm : wfFrom lo ((a, v) :: m) = true)
    (hn : wfFrom lo' n = true) (h : a < lo') : lookup ((a, v) :: m) a ≠ lookup n a := by
  obtain ⟨-, -, hv, -⟩ := wfFrom_cons_iff.mp hm
  rwa [lookup_head, lookup_of_wfFrom h hn]

/-- Lists with the same first key that read the same have tails that read the same: the keys up to the first are listed
in neither tail. -/
theorem lookup_tail_eq {a c : Nat} {v w : Byte} {m n : Memory} (hm : wfFrom (a + 1) m = true)
    (hn : wfFrom (a + 1) n = true) (h : lookup ((a, v) :: m) c = lookup ((a, w) :: n) c) :
    lookup m c = lookup n c := by
  by_cases hc : c ≤ a
  · rw [lookup_of_wfFrom (Nat.lt_succ_of_le hc) hm, lookup_of_wfFrom (Nat.lt_succ_of_le hc) hn]
  · rwa [lookup_tail (by omega), lookup_tail (by omega)] at h

theorem eq_of_lookup_eq {lo : Nat} {m n : Memory} (hm : wfFrom lo m = true) (hn : wfFrom lo n = true)
    (h : ∀ a < Config.memSize, lookup m a = lookup n a) : m = n := by
  induction m generalizing lo n with
  | nil =>
    cases n with
    | nil => rfl
    | cons d n =>
      obtain ⟨-, hb, -, -⟩ := wfFrom_cons_iff.mp hn
      exact absurd (h d.1 hb).symm (lookup_ne_of_head_lt hn (n := []) rfl (Nat.lt_succ_self d.1))
  | cons c m ih =>
    obtain ⟨a, v⟩ := c
    obtain ⟨-, ha, -, hm'⟩ := wfFrom_cons_iff.mp hm
    cases n with
    | nil => exact absurd (h a ha) (lookup_ne_of_head_lt hm (n := []) rfl (Nat.lt_succ_self a))
    | cons d n =>
      obtain ⟨b, w⟩ := d
      obtain ⟨-, hb, -, hn'⟩ := wfFrom_cons_iff.mp hn
      obtain hab | rfl | hab := Nat.lt_trichotomy a b
      · exact absurd (h a ha) (lookup_ne_of_head_lt hm (wfFrom_head hn) hab)
      · obtain rfl : v = w := by
          have hhead := h a ha
          rwa [lookup_head, lookup_head] at hhead
        rw [ih hm' hn' fun c hc => lookup_tail_eq hm' hn' (h c hc)]
      · exact absurd (h b hb).symm (lookup_ne_of_head_lt hn (wfFrom_head hm) hab)

/-- Settles O47: the first listed key of either is listed in the other with the same byte, and so on down the lists. -/
theorem canonicalMemoriesWithEqualReadsAreEqual : Obligations.CanonicalMemoriesWithEqualReadsAreEqual := by
  intro m n hm hn h
  refine eq_of_lookup_eq hm hn fun a ha => ?_
  have hread := h (BitVec.ofNat 8 a)
  rwa [read, read, BitVec.toNat_ofNat, Nat.mod_eq_of_lt ha] at hread

/-- Writing a run of bytes from address 0 a second time changes nothing. -/
theorem writeFrom_zero_idem {m : Memory} (hm : m.wf = true) {p : List Byte} (hp : p.length ≤ 256) :
    (m.writeFrom 0 p).writeFrom 0 p = m.writeFrom 0 p := by
  have hfit : 0 + p.length ≤ 256 := by omega
  have hwf := wf_writeFrom hm 0 p
  refine canonicalMemoriesWithEqualReadsAreEqual _ _ (wf_writeFrom hwf 0 p) hwf fun a => ?_
  rw [read_writeFrom hwf 0 p hfit, read_writeFrom hm 0 p hfit]
  split <;> rfl

end Sys2Proof.Machine.Memory
end

section
/-! SUPPORT AND PROOF. The host's transactions (10_state.md R60, R61). -/

namespace Sys2Proof.Machine

/-! ### load -/

theorem load_eq_some_iff {p : List Byte} {s t : State} :
    load p s = some t ↔ (s.status = .idle ∧ p.length ≤ 256) ∧ t = { s with mem := s.mem.writeFrom 0 p } := by
  by_cases h : s.status = .idle ∧ p.length ≤ Config.memSize
  · simp [load, h, eq_comm]
  · simp [load, h]

theorem load_isSome_iff {p : List Byte} {s : State} :
    (load p s).isSome = true ↔ s.status = .idle ∧ p.length ≤ 256 := by
  simp [Option.isSome_iff_exists, load_eq_some_iff]

/-- Settles O49: `load` writes one run of bytes from address 0, and writing it again writes the same memory. -/
theorem loadCopiesVerbatimAndIsIdempotent : Obligations.LoadCopiesVerbatimAndIsIdempotent := by
  intro s p hwf
  refine ⟨load_isSome_iff, fun t h => ?_⟩
  obtain ⟨⟨hidle, hp⟩, rfl⟩ := load_eq_some_iff.mp h
  have hread := Memory.read_writeFrom hwf 0 p (by omega)
  refine ⟨fun k hk => ?_, fun a ha => ?_, rfl, ?_⟩
  · have hk256 : (BitVec.ofNat 8 k).toNat = k := by
      rw [BitVec.toNat_ofNat]
      omega
    simp [hread, hk256, hk]
  · rw [hread, dif_neg (by omega)]
  · rw [load_eq_some_iff]
    exact ⟨⟨hidle, hp⟩, by rw [Memory.writeFrom_zero_idem hwf hp]⟩

/-! ### reset and start -/

/-- Settles O57: `start` asks for IDLE alone. -/
theorem resetAlwaysAndStartFromIdleOnly : Obligations.ResetAlwaysAndStartFromIdleOnly := fun _ =>
  ⟨rfl, fun hidle => if_pos hidle, fun hidle => if_neg hidle⟩

/-- Settles O50: a step asks for RUNNING, `start` and `load` ask for IDLE. -/
theorem stoppedCoreWaitsForReset : Obligations.StoppedCoreWaitsForReset := by
  intro s hst
  have hidle : s.status ≠ .idle := by
    rintro h
    simp [h] at hst
  refine ⟨fun t h => ?_, if_neg hidle, fun p => if_neg fun h => hidle h.1, rfl⟩
  simp [running_of_step h] at hst

/-- Settles O51: the byte at address 0 is zero after reset, which is no opcode. -/
theorem startWithoutLoadStopsAtZero : Obligations.StartWithoutLoadStopsAtZero :=
  ⟨_, _, if_pos rfl, unrecognizedOpcodeStopsTheCore (State.reset.setStatus .running) rfl (by decide),
    rfl, rfl, rfl, rfl, rfl⟩

/-! ### observe -/

/-- Settles O52: the memory is the window of all 256 bytes, and each other piece is a field or its code. -/
theorem observeShowsTheWholeState : Obligations.ObserveShowsTheWholeState := by
  intro s
  refine ⟨Memory.length_bytesFrom s.mem 0 256 (le_refl _), fun a => ?_, rfl, rfl, rfl, rfl, rfl, rfl, rfl, ?_, ?_, ?_,
    decide_eq_true_iff⟩
  · have hbyte := Memory.getElem?_bytesFrom s.mem 0 256 a.toNat a.isLt (le_refl _)
    rwa [Nat.zero_add, BitVec.ofNat_toNat, BitVec.setWidth_eq] at hbyte
  · simp only [observe]
    cases s.fl <;> rfl
  · simp only [observe]
    cases s.status <;> rfl
  · simp only [observe]
    cases s.faultCause <;> rfl

end Sys2Proof.Machine
end

section
/-! SUPPORT AND PROOF. The invariant: at reset, over every step, over the host's transactions, and so in every state a
host can bring the core to. -/

namespace Sys2Proof.Machine

/-- In IDLE, with all but memory as at reset, the clauses of FAULTED and HALTED do not arise. -/
theorem inv_reset_with_mem {m : Memory} (hwf : m.wf = true) : State.Inv { State.reset with mem := m } where
  memWf := hwf
  recordClear _ := ⟨rfl, rfl, rfl, rfl⟩
  recordSet := nofun
  haltedByHlt := nofun
  idleIsReset _ := rfl

/-- Settles O53: the reset memory lists no byte, which is canonical. -/
theorem resetMeetsTheInvariant : Obligations.ResetMeetsTheInvariant := inv_reset_with_mem Memory.wf_nil

/-! ### The step -/

theorem step_keeps_wf {s t : State} (h : step s = .next t) (hwf : s.mem.wf = true) : t.mem.wf = true := by
  obtain ⟨f, rfl⟩ | ⟨i, -, -, hc⟩ := step_cases_completes h
  · exact hwf
  · obtain hmem | ⟨-, v, hmem⟩ := hc.mem
    · rw [hmem]
      exact hwf
    · rw [hmem]
      exact Memory.wf_write hwf _ v

/-- Outside FAULTED a step keeps the fault record (10_state.md R53). -/
theorem step_keeps_record {s t : State} (h : step s = .next t) (hst : t.status ≠ .faulted) :
    t.faultCause = s.faultCause ∧ t.faultPc = s.faultPc ∧ t.faultOpcode = s.faultOpcode ∧
      t.faultInfo = s.faultInfo := by
  obtain ⟨i, -, -, hc⟩ := completes_of_step h hst
  exact hc.record

/-- A step to HALTED leaves HLT in IR and just before the pc (45_halt.md R220). -/
theorem hlt_before_pc_of_step {s t : State} (h : step s = .next t) (hst : t.status = .halted) :
    t.ir = 0x01 ∧ t.mem.read (t.pc - 1) = 0x01 := by
  have hop : s.mem.read s.pc = 0x01 := (onlyHltHalts s t h).2.mp hst
  cases h.symm.trans (hltStopsTheCore s (running_of_step h) hop)
  have hpc : BitVec.ofNat 8 ((s.pc.toNat + 1) % 256) - 1 = s.pc := by bv_omega
  exact ⟨rfl, by rw [hpc, hop]⟩

/-- Settles O54: the memory stays canonical, the record is written by the precise stop alone, and that stop is for the
first fault of the table, which reads no piece that the stop writes. -/
theorem stepKeepsTheInvariant : Obligations.StepKeepsTheInvariant := by
  intro s t hs h
  refine ⟨step_keeps_wf h hs.memWf, fun hst => ?_, fun hst => ?_, hlt_before_pc_of_step h, fun hst => ?_⟩
  · obtain ⟨hcause, hpc, hopcode, hinfo⟩ := step_keeps_record h hst
    rw [hcause, hpc, hopcode, hinfo]
    exact hs.recordClear (by simp [running_of_step h])
  · obtain ⟨f, hf, rfl⟩ := faultStop_of_step_faulted h hst
    exact ⟨rfl, rfl, rfl, hf⟩
  · exact absurd hst (onlyHltHalts s t h).1

/-! ### The host's transactions -/

theorem load_keeps_inv {s t : State} {p : List Byte} (hs : s.Inv) (h : load p s = some t) : t.Inv := by
  obtain ⟨⟨hidle, -⟩, rfl⟩ := load_eq_some_iff.mp h
  rw [hs.idleIsReset hidle]
  exact inv_reset_with_mem (Memory.wf_writeFrom hs.memWf 0 p)

/-- A started core is RUNNING, where the invariant asks for a canonical memory and a clear record. -/
theorem start_keeps_inv {s t : State} (hs : s.Inv) (h : start s = some t) : t.Inv := by
  obtain ⟨hidle, h⟩ := Option.ite_some_none_eq_some.mp h
  subst h
  exact ⟨hs.memWf, fun _ => hs.recordClear (by simp [hidle]), nofun, nofun, nofun⟩

/-- Settles O55: reset gives the reset state, and the other two start from IDLE, where all but memory is reset. -/
theorem hostTransactionsKeepTheInvariant : Obligations.HostTransactionsKeepTheInvariant := fun _ _ hs =>
  ⟨resetMeetsTheInvariant, fun _ => load_keeps_inv hs, start_keeps_inv hs⟩

/-- Settles O56, by induction on how the state was reached. -/
theorem reachableStatesMeetTheInvariant : Obligations.ReachableStatesMeetTheInvariant := by
  intro s h
  induction h with
  | reset => exact resetMeetsTheInvariant
  | hostReset => exact resetMeetsTheInvariant
  | load p _ hload ih => exact load_keeps_inv ih hload
  | start _ hstart ih => exact start_keeps_inv ih hstart
  | step _ hstep ih => exact stepKeepsTheInvariant _ _ ih hstep

end Sys2Proof.Machine
end
